-- ==== Sys2Proof/Word.lean ====
section
/-!
DEFINITION. The data the codec handles: bytes, Pixels and slot numbers (spec/00_scope.md R7, spec/10_state.md R11).
-/

namespace Sys2Proof

/-- A byte: an integer 0..255, bit 7 the most significant (R7). -/
abbrev Byte := BitVec 8

/-- A slot number of the index cache, 0..63 (R11). -/
abbrev Slot := Fin 64

/-- A Pixel: a 4-tuple of bytes; two Pixels are equal when all four channels are equal (R7). -/
structure Pixel where
  r : Byte
  g : Byte
  b : Byte
  a : Byte
  deriving DecidableEq, Repr, Inhabited

end Sys2Proof
end

