-- ==== Sys2Proof/Config.lean ====
section
/-!
DEFINITION. What is fixed for the machine (spec/00_scope.md R5, spec/30_encoding.md R51, R52), and the free values:
constants without a body that stand for what the spec leaves unspecified (spec/10_state.md R22, spec/60_exceptions.md
R180; assumption log 7 and 12). No proof can see a value of one.
-/

namespace Sys2Proof

/-- `HEADER_BYTES` (R5). -/
def Config.headerBytes : Nat := 14

/-- `RUN_MAX` (R5). -/
def Config.runMax : Nat := 62

/-- The magic, ASCII `qoif` (R51). -/
def Config.magic : List Byte := [0x71, 0x6F, 0x69, 0x66]

/-- The end marker: seven `0x00` then one `0x01` (R52). -/
def Config.endMarker : List Byte := [0x00, 0x00, 0x00, 0x00, 0x00, 0x00, 0x00, 0x01]

/-- The Pixel every slot holds at the start of a call (R5, R11). -/
def Config.clearedPixel : Pixel := ⟨0, 0, 0, 0⟩

/-- `prev` at the start of a call (R5, R13). -/
def Config.initialPrev : Pixel := ⟨0, 0, 0, 255⟩

/-- The value of `cache` that draw `n` leaves. -/
opaque Config.freeCache : Nat → Vector Pixel 64
/-- The value of `prev` that draw `n` leaves. -/
opaque Config.freePrev : Nat → Pixel
/-- The value of `run` that draw `n` leaves; the register has 6 bits (R14). -/
opaque Config.freeRun : Nat → BitVec 6
/-- The value of `npix` that draw `n` leaves; 64 bits (R15). -/
opaque Config.freeNpix : Nat → BitVec 64
/-- The value of `px_cnt` that draw `n` leaves; 64 bits (R15). -/
opaque Config.freePxCnt : Nat → BitVec 64
/-- The value of `pc` that draw `n` leaves; 64 bits (R16). -/
opaque Config.freePc : Nat → BitVec 64
/-- The value of `OUT_LEN` that draw `n` leaves. -/
opaque Config.freeOutLen : Nat → BitVec 64
/-- The value of `END_PC` that draw `n` leaves. -/
opaque Config.freeEndPc : Nat → BitVec 64
/-- The value of `OP` that draw `n` leaves. -/
opaque Config.freeOp : Nat → BitVec 2
/-- The value of `WIDTH` that draw `n` leaves. -/
opaque Config.freeWidth : Nat → BitVec 32
/-- The value of `HEIGHT` that draw `n` leaves. -/
opaque Config.freeHeight : Nat → BitVec 32
/-- The value of `CHANNELS` that draw `n` leaves. -/
opaque Config.freeChannels : Nat → BitVec 8
/-- The value of `COLORSPACE` that draw `n` leaves. -/
opaque Config.freeColorspace : Nat → BitVec 8
/-- The value of `LEN` that draw `n` leaves. -/
opaque Config.freeLen : Nat → BitVec 64
/-- What `OUT_LEN` reports when `|OUT|` does not fit its 64 bits: the spec states no value (log 12). -/
opaque Config.outLenOverflow : Nat → BitVec 64

end Sys2Proof
end

