-- ==== Sys2Proof/Syntax.lean ====
section
/-!
DEFINITION. The items of a QOI stream, one constructor per row of spec/opcode_table.json: the six chunks and the two
framing items (spec/30_encoding.md R50 to R60), with the operands in the spec's notation (R66).
-/

namespace Sys2Proof

/-- One item of a stream. Operands are values, not encoded fields: deltas are signed, a run length counts Pixels. -/
inductive Instr where
  /-- `RGB r, g, b` (R54). -/
  | rgb (r g b : Byte)
  /-- `RGBA r, g, b, a` (R55). -/
  | rgba (r g b a : Byte)
  /-- `INDEX s`, a slot number 0..63 (R56). -/
  | index (slot : Slot)
  /-- `DIFF dr, dg, db`, each -2..1 (R58). -/
  | diff (dr dg db : Int)
  /-- `LUMA dg, dr_dg, db_dg`, `dg` -32..31, the others -8..7 (R59). -/
  | luma (dg drDg dbDg : Int)
  /-- `RUN n`, 1..62 (R60). -/
  | run (n : Nat)
  /-- `HEADER w, h, c, cs` (R51). -/
  | header (w h : BitVec 32) (c cs : Byte)
  /-- `END`, the end marker (R52). -/
  | endMarker
  deriving DecidableEq, Repr

end Sys2Proof
end

