-- ==== Sys2Proof/WellFormed.lean ====
section
/-!
DEFINITION. Which items the notation of spec/30_encoding.md R66 can write: every operand in the range of R61.
-/

namespace Sys2Proof

/-- Every operand lies in the range R61 and R66 give it. Operands whose type already is that range need no check; the
channel byte of a HEADER may be any byte (R66), its legality is tested when the header is used (R80, R81). -/
def Instr.wf : Instr → Bool
  | .rgb _ _ _ => true
  | .rgba _ _ _ _ => true
  | .index _ => true
  | .diff dr dg db => -2 ≤ dr && dr ≤ 1 && -2 ≤ dg && dg ≤ 1 && -2 ≤ db && db ≤ 1
  | .luma dg drDg dbDg => -32 ≤ dg && dg ≤ 31 && -8 ≤ drDg && drDg ≤ 7 && -8 ≤ dbDg && dbDg ≤ 7
  | .run n => 1 ≤ n && n ≤ 62
  | .header _ _ _ _ => true
  | .endMarker => true

/-- The items that are chunks (R53); HEADER and END are framing items (R66). -/
def Instr.isChunk : Instr → Bool
  | .rgb _ _ _ => true
  | .rgba _ _ _ _ => true
  | .index _ => true
  | .diff _ _ _ => true
  | .luma _ _ _ => true
  | .run _ => true
  | .header _ _ _ _ => false
  | .endMarker => false

end Sys2Proof
end

