-- ==== Sys2Proof/Decode.lean ====
section
/-!
DEFINITION. Bytes to items and back (spec/30_encoding.md). The decoder is total on any bytes and rejects by name; the
encoder writes the bytes of R51 to R60. The DIFF field layout and the LUMA nibble order are the spec's decisions D4, D5
(assumption log 14 and 15).
-/

namespace Sys2Proof

/-- Why bytes are no item. -/
inductive DecodeError where
  /-- The bytes end before the item does (R106, R81). -/
  | truncated
  /-- The first four bytes are not the magic (R82). -/
  | badMagic
  /-- The eight bytes are not the end marker (R52). -/
  | notEndMarker
  deriving DecidableEq, Repr

/-- The bit field of `width` bits from bit `lo` of a byte, read as an unsigned integer (`v[hi:lo]` of R7). -/
def byteField (b : Byte) (lo width : Nat) : Nat := b.toNat / 2 ^ lo % 2 ^ width

/-- A biased field: `value = field - bias` (R61). -/
def biasedField (b : Byte) (lo width : Nat) (bias : Int) : Int := (byteField b lo width : Int) - bias

/-- The slot field of an INDEX chunk, bits 5:0 (R56). -/
def slotField (b : Byte) : Slot := Fin.ofNat 64 (byteField b 0 6)

/-- The four bytes of a 32-bit value, most significant first (R33). -/
def bigEndian32 (w : BitVec 32) : List Byte :=
  [w.extractLsb' 24 8, w.extractLsb' 16 8, w.extractLsb' 8 8, w.extractLsb' 0 8]

/-- The 32-bit value of four bytes, the first the most significant (R33, R81). -/
def ofBigEndian32 (b0 b1 b2 b3 : Byte) : BitVec 32 :=
  BitVec.ofNat 32 (b0.toNat * 2 ^ 24 + b1.toNat * 2 ^ 16 + b2.toNat * 2 ^ 8 + b3.toNat)

/-- The six chunk kinds (R53). -/
inductive ChunkKind where
  | rgb | rgba | index | diff | luma | run
  deriving DecidableEq, Repr

/-- The kind of a chunk, from its first byte alone, the two full-byte tags first (R53, R62, R110). Every byte has one
(R63). -/
def chunkKind (b : Byte) : ChunkKind :=
  if b = 0xFE then .rgb
  else if b = 0xFF then .rgba
  else
    match byteField b 6 2 with
    | 0 => .index
    | 1 => .diff
    | 2 => .luma
    | _ => .run

/-- The length in bytes of a chunk of each kind (R53). -/
def ChunkKind.length : ChunkKind → Nat
  | .rgb => 4
  | .rgba => 5
  | .index => 1
  | .diff => 1
  | .luma => 2
  | .run => 1

/-- The chunk at the head of a byte list, and the bytes after it (R106, R110, formats R54 to R60). -/
def decodeChunk : List Byte → Except DecodeError (Instr × List Byte)
  | [] => .error .truncated
  | b :: rest =>
    match chunkKind b with
    | .rgb =>
      match rest with
      | r :: g :: bl :: rest => .ok (.rgb r g bl, rest)
      | _ => .error .truncated
    | .rgba =>
      match rest with
      | r :: g :: bl :: a :: rest => .ok (.rgba r g bl a, rest)
      | _ => .error .truncated
    | .index => .ok (.index (slotField b), rest)
    | .diff => .ok (.diff (biasedField b 4 2 2) (biasedField b 2 2 2) (biasedField b 0 2 2), rest)
    | .luma =>
      match rest with
      | b1 :: rest => .ok (.luma (biasedField b 0 6 32) (biasedField b1 4 4 8) (biasedField b1 0 4 8), rest)
      | _ => .error .truncated
    | .run => .ok (.run (byteField b 0 6 + 1), rest)

/-- The HEADER at the head of a byte list: length, then magic (R81); the four fields are read as they stand, and the
channel count is tested by the meaning of HEADER. -/
def decodeHeaderItem : List Byte → Except DecodeError (Instr × List Byte)
  | m0 :: m1 :: m2 :: m3 :: w0 :: w1 :: w2 :: w3 :: h0 :: h1 :: h2 :: h3 :: c :: cs :: rest =>
    if [m0, m1, m2, m3] = Config.magic then
      .ok (.header (ofBigEndian32 w0 w1 w2 w3) (ofBigEndian32 h0 h1 h2 h3) c cs, rest)
    else .error .badMagic
  | _ => .error .truncated

/-- The END item at the head of a byte list (R52). The machine's decoder never reads one (R166); this is the inverse of
its emission. -/
def decodeEndItem (bs : List Byte) : Except DecodeError (Instr × List Byte) :=
  if bs.length < 8 then .error .truncated
  else if bs.take 8 = Config.endMarker then .ok (.endMarker, bs.drop 8)
  else .error .notEndMarker

/-- Where in a stream an item is read: HEADER only at offset 0, END only after the last chunk (R50). -/
inductive StreamPlace where
  | start | body | close
  deriving DecidableEq, Repr

/-- The item read at a place of the stream. -/
def decodeItem (at_ : StreamPlace) (bs : List Byte) : Except DecodeError (Instr × List Byte) :=
  match at_ with
  | .start => decodeHeaderItem bs
  | .body => decodeChunk bs
  | .close => decodeEndItem bs

/-- The place of the stream an item stands at (R50). -/
def Instr.place : Instr → StreamPlace
  | .rgb _ _ _ => .body
  | .rgba _ _ _ _ => .body
  | .index _ => .body
  | .diff _ _ _ => .body
  | .luma _ _ _ => .body
  | .run _ => .body
  | .header _ _ _ _ => .start
  | .endMarker => .close

/-- The length of an item in bytes, the table's `length_bytes` (R51 to R60). -/
def Instr.length : Instr → Nat
  | .rgb _ _ _ => 4
  | .rgba _ _ _ _ => 5
  | .index _ => 1
  | .diff _ _ _ => 1
  | .luma _ _ _ => 2
  | .run _ => 1
  | .header _ _ _ _ => 14
  | .endMarker => 8

/-- The bytes of an item (R66; fields R61). -/
def encode : Instr → List Byte
  | .rgb r g b => [0xFE, r, g, b]
  | .rgba r g b a => [0xFF, r, g, b, a]
  | .index s => [BitVec.ofNat 8 s.val]
  | .diff dr dg db => [BitVec.ofInt 8 (0x40 + (dr + 2) * 16 + (dg + 2) * 4 + (db + 2))]
  | .luma dg drDg dbDg =>
    [BitVec.ofInt 8 (0x80 + (dg + 32)), BitVec.ofInt 8 ((drDg + 8) * 16 + (dbDg + 8))]
  | .run n => [BitVec.ofNat 8 (0xC0 + (n - 1))]
  | .header w h c cs => Config.magic ++ bigEndian32 w ++ bigEndian32 h ++ [c, cs]
  | .endMarker => Config.endMarker

/-- The `n` lowest bytes of a number, the least significant first: the table's numbering of a row's bits, in the order
the bytes stand in the stream (R34). -/
def wordBytes (n w : Nat) : List Byte := (List.range n).map fun k => BitVec.ofNat 8 (w / 2 ^ (8 * k))

/-- The bytes of a HEADER row's word as spec/opcode_table.json numbers it: its match is written most significant byte
first, so the row's words are the big-endian 32-bit magic, width and height, then the two bytes (log 17). -/
def headerWordBytes (w : Nat) : List Byte :=
  bigEndian32 (BitVec.ofNat 32 w) ++ bigEndian32 (BitVec.ofNat 32 (w / 2 ^ 32)) ++
    bigEndian32 (BitVec.ofNat 32 (w / 2 ^ 64)) ++ [BitVec.ofNat 8 (w / 2 ^ 96), BitVec.ofNat 8 (w / 2 ^ 104)]

/-- The place of the stream and the bytes that a table row's word stands for: a 32-bit or longer word that begins with the
magic is a HEADER's, a 64-bit word is END's (in either byte numbering of the table, log 17), any other is a chunk's. -/
def tableWordLayout (nbits w : Nat) : StreamPlace × List Byte :=
  let w := w % 2 ^ nbits
  if 32 ≤ nbits && decide (w % 2 ^ 32 = 0x716F6966) then (.start, headerWordBytes w)
  else if 32 ≤ nbits && decide (wordBytes 4 w = Config.magic) then (.start, wordBytes 14 w)
  else if nbits = 64 then (.close, if w = 1 then Config.endMarker else wordBytes 8 w)
  else (.body, wordBytes 5 w)

/-- The instruction the decoder reads from a table row's word, bits above `nbits` zero. -/
def decodeTableWord (nbits w : Nat) : Option Instr :=
  match decodeItem (tableWordLayout nbits w).1 (tableWordLayout nbits w).2 with
  | .ok (i, _) => some i
  | .error _ => none

end Sys2Proof
end

