-- ==== Sys2Proof/Machine/State.lean ====
section
/-!
DEFINITION. The machine's state as plain data (spec/10_state.md, spec/20_memory.md R30, spec/44_operations.md R169), its
fault and refusal reasons, and the state after reset.
-/

namespace Sys2Proof.Machine

/-- Why the machine stops with a fault: never. The spec's seven error kinds are results of a call, after which the block
accepts the next command (R180, R192), so they are next states, and nothing in the spec stops the block (log 23: safe). -/
inductive Fault
  deriving DecidableEq, Repr

/-- Why an instruction is refused. -/
inductive Refusal where
  /-- Raised by an arm of `exec` that has no meaning yet; no arm is so. Safe: the model stops. -/
  | notModelled (mnemonic : String)
  deriving DecidableEq, Repr

/-- The register PHASE (R19). -/
inductive Phase where
  | idle
  | encRun
  | decRun
  | doneOk
  | doneErr
  deriving DecidableEq, Repr

/-- The error kinds, in the order of their codes 1 to 7 (R181). -/
inductive ErrorKind where
  | badMagic
  | invalidDimensions
  | invalidChannelCount
  | truncatedInput
  | malformedRun
  | pixelCountMismatch
  | bufferSizeMismatch
  deriving DecidableEq, Repr

/-- The input byte sequence as delivered so far: (offset, byte) pairs, offsets strictly rising. An offset that is not
listed holds no byte: the host has not delivered it (R169; log 2). -/
abbrev Memory := List Host.Cell

/-- The canonical form: offsets strictly rising. Every listed byte differs from what an unlisted offset reads as, since
that is no byte at all. -/
def Memory.wf : Memory → Bool
  | [] => true
  | [_] => true
  | c :: d :: m => decide (c.1 < d.1) && Memory.wf (d :: m)

/-- One item of the channel `cmd` (R169): the command registers' values, and the input sequence the host delivers in the
call it starts (each call owns its own input: R30, R44; log 6). -/
structure Command where
  op : BitVec 2
  width : BitVec 32
  height : BitVec 32
  channels : BitVec 8
  colorspace : BitVec 8
  len : BitVec 64
  /-- What the host delivers on `byte_in`. -/
  bytes : Memory
  /-- What the host delivers on `pix_in`. -/
  pixels : List Pixel
  deriving DecidableEq, Repr

/-- One item of the channel `rsp`, given at completion (R169). -/
structure Response where
  phase : Phase
  err : Option ErrorKind
  width : BitVec 32
  height : BitVec 32
  channels : BitVec 8
  colorspace : BitVec 8
  outLen : BitVec 64
  endPc : BitVec 64
  deriving DecidableEq, Repr

/-- The whole state of one instance of the block. -/
structure State where
  /-- OP (R18). -/
  op : BitVec 2
  /-- WIDTH (R18). -/
  width : BitVec 32
  /-- HEIGHT (R18). -/
  height : BitVec 32
  /-- CHANNELS (R18). -/
  channels : BitVec 8
  /-- COLORSPACE (R18). -/
  colorspace : BitVec 8
  /-- LEN (R18): Pixels of an encode's input, bytes of a decode's. -/
  len : BitVec 64
  /-- PHASE (R19). -/
  phase : Phase
  /-- ERR (R19, R181); `none` is code 0. -/
  err : Option ErrorKind
  /-- OUT_LEN (R19). -/
  outLen : BitVec 64
  /-- END_PC (R19). -/
  endPc : BitVec 64
  /-- The index cache (R11). -/
  cache : Vector Pixel 64
  /-- The previous Pixel (R13). -/
  prev : Pixel
  /-- The encoder's pending run length (R14; log 11). -/
  run : Nat
  /-- The declared pixel count (R15; log 11). -/
  npix : Nat
  /-- `px_cnt`: Pixels consumed or produced so far (R15; log 11). -/
  pxCnt : Nat
  /-- The decoder's byte cursor (R16; log 11). -/
  pc : Nat
  /-- `IN`, as delivered (R30). -/
  inMem : Memory
  /-- The input Pixels, as delivered (R30). -/
  pixIn : List Pixel
  /-- `OUT`, the output byte sequence (R30, R31). -/
  out : List Byte
  /-- The output Pixels (R30, R31). -/
  pixOut : List Pixel
  /-- The channel `cmd`: commands issued and not yet accepted, oldest first (R160, R169). -/
  cmd : List Command
  /-- The channel `rsp`: responses given, oldest first (R169). -/
  rsp : List Response
  /-- The channel `rst`: a reset request not yet taken (R169, R210). -/
  rst : Bool
  /-- The model's own: the header codec has taken its step in this call (R10, R21; log 5). -/
  hdrDone : Bool
  /-- The model's own: how many times unspecified values have been drawn (log 7). -/
  draws : Nat
  deriving DecidableEq, Repr

/-- The machine right after reset (R22): PHASE and ERR as R22 says, the output sequences empty, nothing issued or
delivered. R22 leaves the other registers unspecified: the values here are named in log 1. -/
def State.reset : State where
  op := 0
  width := 0
  height := 0
  channels := 0
  colorspace := 0
  len := 0
  phase := .idle
  err := none
  outLen := 0
  endPc := 0
  cache := Vector.replicate 64 Config.clearedPixel
  prev := Config.initialPrev
  run := 0
  npix := 0
  pxCnt := 0
  pc := Config.headerBytes
  inMem := []
  pixIn := []
  out := []
  pixOut := []
  cmd := []
  rsp := []
  rst := false
  hdrDone := false
  draws := 0

end Sys2Proof.Machine
end

