-- ==== Sys2Proof/Machine/Operands.lean ====
section
/-!
DEFINITION. Arithmetic on Pixels and bytes: wraps, differences, delta application, the hash and the packed pixel word
(spec/00_scope.md R7, spec/41_index_cache_and_diff.md R90 to R96, spec/10_state.md R13).
-/

namespace Sys2Proof.Machine

/-- `u8(x) = x mod 256` (R7). -/
def u8 (x : Int) : Byte := BitVec.ofInt 8 x

/-- `s8(x)`: the signed 8-bit reading of `x mod 256`, -128..127 (R7). -/
def s8 (x : Int) : Int := if x % 256 < 128 then x % 256 else x % 256 - 256

/-- A byte as an unbounded integer (R7). -/
def byteInt (b : Byte) : Int := (b.toNat : Int)

/-- The slot a Pixel maps to (R90). -/
def pixelHash (p : Pixel) : Slot :=
  Fin.ofNat 64 (p.r.toNat * 3 + p.g.toNat * 5 + p.b.toNat * 7 + p.a.toNat * 11)

/-- The difference of one channel, the "mod-256 signed wraparound distance" (R93). -/
def channelDiff (x y : Byte) : Int := s8 (byteInt x - byteInt y)

/-- The differences of `p` against `prev` in r, g, b (R93). -/
structure Deltas where
  dr : Int
  dg : Int
  db : Int
  deriving DecidableEq, Repr

/-- The pixel-difference unit (R93). -/
def pixelDeltas (p prev : Pixel) : Deltas :=
  ⟨channelDiff p.r prev.r, channelDiff p.g prev.g, channelDiff p.b prev.b⟩

/-- A channel `c` with delta `d` (R96). -/
def addDelta (c : Byte) (d : Int) : Byte := u8 (byteInt c + d)

/-- Deltas applied to `prev`: wraps modulo 256, alpha unchanged (R96). -/
def applyDeltas (prev : Pixel) (dr dg db : Int) : Pixel :=
  ⟨addDelta prev.r dr, addDelta prev.g dg, addDelta prev.b db, prev.a⟩

/-- A Pixel on a 32-bit channel: r [31:24], g [23:16], b [15:8], a [7:0] (R13, R169). -/
def packPixel (p : Pixel) : BitVec 32 := p.r ++ p.g ++ p.b ++ p.a

/-- The Pixel of a 32-bit channel word (R13, R169). -/
def unpackPixel (w : BitVec 32) : Pixel :=
  ⟨w.extractLsb' 24 8, w.extractLsb' 16 8, w.extractLsb' 8 8, w.extractLsb' 0 8⟩

end Sys2Proof.Machine
end

