-- ==== Sys2Proof/Machine/Flags.lean ====
section
/-!
DEFINITION. The conditions the block tests and the codes of its two flag registers. No chunk sets or tests a condition
code (spec/10_state.md R19): PHASE and ERR are the only flags, and the rest are predicates on Pixels
(spec/41_index_cache_and_diff.md R93 to R95, spec/43_encoder.md R132, R135).
-/

namespace Sys2Proof.Machine

/-- The 3-bit code of PHASE (R19). -/
def Phase.code : Phase → BitVec 3
  | .idle => 0
  | .encRun => 1
  | .decRun => 2
  | .doneOk => 3
  | .doneErr => 4

/-- A call is running (R160, R170). -/
def Phase.running : Phase → Bool
  | .idle => false
  | .encRun => true
  | .decRun => true
  | .doneOk => false
  | .doneErr => false

/-- `code(E)` (R181). -/
def ErrorKind.code : ErrorKind → BitVec 3
  | .badMagic => 1
  | .invalidDimensions => 2
  | .invalidChannelCount => 3
  | .truncatedInput => 4
  | .malformedRun => 5
  | .pixelCountMismatch => 6
  | .bufferSizeMismatch => 7

/-- The register ERR as its 3-bit code (R19, R181). -/
def errCode : Option ErrorKind → BitVec 3
  | none => 0
  | some e => e.code

/-- What a command's OP asks for (R18): 0 and 3 start no call. -/
inductive Operation where
  | nothing | encode | decode
  deriving DecidableEq, Repr

/-- The operation of an OP value (R18). -/
def operationOf (op : BitVec 2) : Operation :=
  if op = 1 then .encode else if op = 2 then .decode else .nothing

/-- The PHASE a started call runs in (R160). -/
def Operation.phase : Operation → Phase
  | .nothing => .idle
  | .encode => .encRun
  | .decode => .decRun

/-- `channels` is 3 or 4 (R5, R80, R81). -/
def channelsLegal (c : Byte) : Bool := decide (c = 3) || decide (c = 4)

/-- `same_alpha` (R93). -/
def sameAlpha (p prev : Pixel) : Bool := decide (p.a = prev.a)

/-- `lo <= x <= hi`. -/
def inRange (lo hi x : Int) : Bool := decide (lo ≤ x) && decide (x ≤ hi)

/-- `diff_fits(P, prev)` (R94). -/
def diffFits (p prev : Pixel) : Bool :=
  let d := pixelDeltas p prev
  sameAlpha p prev && inRange (-2) 1 d.dr && inRange (-2) 1 d.dg && inRange (-2) 1 d.db

/-- `luma_fits(P, prev)`; the two subtractions are over the integers (R95). -/
def lumaFits (p prev : Pixel) : Bool :=
  let d := pixelDeltas p prev
  sameAlpha p prev && inRange (-32) 31 d.dg && inRange (-8) 7 (d.dr - d.dg) && inRange (-8) 7 (d.db - d.dg)

end Sys2Proof.Machine
end

