-- ==== Sys2Proof/Machine/Ops.lean ====
section
/-!
DEFINITION. The named operations every meaning is written with: the cache ports, the sequences, raising an error, the
start and the end of a call, reset, and the commit of either pipeline.
-/

namespace Sys2Proof.Machine

/-- The outcome of every step of this block. -/
abbrev Result := Host.Outcome State Fault Refusal

/-- Two actions of one step, the second only if the first gives a next state. -/
def andThen (x : Result) (k : State → Result) : Result :=
  match x with
  | .next s => k s
  | .fault r => .fault r
  | .refused r => .refused r

/-- The block waits: nothing changes (R23, R169; log 3). -/
def wait (s : State) : Result := .next s

-- The index cache ------------------------------------------------------------------------------------------------

/-- `cache[s]` (R91). -/
def readSlot (s : State) (slot : Slot) : Pixel := s.cache[slot]

/-- `cache[hash(P)] <- P` (R92). -/
def writeCache (p : Pixel) (s : State) : State := { s with cache := s.cache.set (pixelHash p).val p (pixelHash p).isLt }

/-- The cleared cache (R11, R21). -/
def clearedCache : Vector Pixel 64 := Vector.replicate 64 Config.clearedPixel

-- The input byte sequence ----------------------------------------------------------------------------------------

/-- The byte at an offset, if the host has delivered it. -/
def Memory.read : Memory → Nat → Option Byte
  | [], _ => none
  | (x, v) :: m, a => if x = a then some v else Memory.read m a

/-- The byte `b` placed at offset `a`; keeps the canonical form. The block itself never writes IN (R44): this is the
host's delivery. -/
def Memory.write : Memory → Nat → Byte → Memory
  | [], a, b => [(a, b)]
  | (x, v) :: m, a, b =>
    if a < x then (a, b) :: (x, v) :: m
    else if a = x then (a, b) :: m
    else (x, v) :: Memory.write m a b

/-- The bytes at `n` consecutive offsets from `a`, if all are delivered. -/
def Memory.readBytes (m : Memory) : Nat → Nat → Option (List Byte)
  | _, 0 => some []
  | a, n + 1 =>
    match Memory.read m a, Memory.readBytes m (a + 1) n with
    | some b, some bs => some (b :: bs)
    | _, _ => none

/-- The bytes of a list placed at consecutive offsets from `a`. -/
def Memory.writeBytes (m : Memory) : Nat → List Byte → Memory
  | _, [] => m
  | a, b :: bs => Memory.writeBytes (Memory.write m a b) (a + 1) bs

/-- A delivered byte sequence as a memory, from offset 0. -/
def Memory.ofBytes (bs : List Byte) : Memory := Memory.writeBytes [] 0 bs

/-- What `MemRead` finds. -/
inductive Fetched (α : Type) where
  /-- The bytes, all inside `LEN` and delivered. -/
  | got (x : α)
  /-- A byte at or past `LEN` was asked for (R8): the reader raises `TruncatedInput`. -/
  | pastEnd
  /-- Inside `LEN`, not yet delivered: the block waits (R169). -/
  | withheld
  deriving DecidableEq, Repr

/-- `MemRead(addr, n)` (R8, R38). -/
def memRead (s : State) (addr n : Nat) : Fetched (List Byte) :=
  if s.len.toNat < addr + n then .pastEnd
  else
    match Memory.readBytes s.inMem addr n with
    | some bs => .got bs
    | none => .withheld

/-- `MemRead(addr, 1)[0]` (R8, R106). -/
def memReadByte (s : State) (addr : Nat) : Fetched Byte :=
  if s.len.toNat < addr + 1 then .pastEnd
  else
    match Memory.read s.inMem addr with
    | some b => .got b
    | none => .withheld

-- The output sequences -------------------------------------------------------------------------------------------

/-- `Emit(b0, b1, ...)`: append to OUT (R8, R31). -/
def emit (bs : List Byte) (s : State) : State := { s with out := s.out ++ bs }

/-- `repeat cnt times: PixOut(P)` (R8, R117). -/
def pixOutTimes (p : Pixel) (cnt : Nat) (s : State) : State :=
  { s with pixOut := s.pixOut ++ List.replicate cnt p }

/-- `PixIn(k)`, if the host has delivered it (R8, R131). -/
def pixInAt (s : State) (k : Nat) : Option Pixel := s.pixIn[k]?

-- The end of a call ----------------------------------------------------------------------------------------------

/-- The response given at completion (R169). -/
def responseOf (s : State) : Response where
  phase := s.phase
  err := s.err
  width := s.width
  height := s.height
  channels := s.channels
  colorspace := s.colorspace
  outLen := s.outLen
  endPc := s.endPc

/-- The item put on the channel `rsp` (R169). -/
def respond (s : State) : State := { s with rsp := s.rsp ++ [responseOf s] }

/-- The working registers with unspecified values: cache, prev, run, npix, px_cnt, pc, OUT_LEN, END_PC (R22, R180; log 7). -/
def freeWorking (s : State) : State :=
  { s with
    cache := Config.freeCache s.draws
    prev := Config.freePrev s.draws
    run := (Config.freeRun s.draws).toNat
    npix := (Config.freeNpix s.draws).toNat
    pxCnt := (Config.freePxCnt s.draws).toNat
    pc := (Config.freePc s.draws).toNat
    outLen := Config.freeOutLen s.draws
    endPc := Config.freeEndPc s.draws }

/-- The header registers with unspecified values (R22, R84, R180). -/
def freeHeaderRegs (s : State) : State :=
  { s with
    width := Config.freeWidth s.draws
    height := Config.freeHeight s.draws
    channels := Config.freeChannels s.draws
    colorspace := Config.freeColorspace s.draws }

/-- The draw just made is used up. -/
def nextDraw (s : State) : State := { s with draws := s.draws + 1 }

/-- `raise E` (R180): the call ends at once, ERR and PHASE are written, and the working registers, OUT_LEN, END_PC and the
header registers are unspecified (logs 7 to 9); nothing that was output is a result (R170; log 10). `pc` is among them
after an error of the chunk fetch too: the fetch itself does not move it (R106), and then the call ends (log 8). -/
def raise (e : ErrorKind) (s : State) : State :=
  respond (nextDraw { freeWorking (freeHeaderRegs s) with phase := .doneErr, err := some e, out := [], pixOut := [] })

/-- The value OUT_LEN takes for a length: the length, where 64 bits hold it (R19; log 12). -/
def outLenOf (n draw : Nat) : BitVec 64 := if n < 2 ^ 64 then BitVec.ofNat 64 n else Config.outLenOverflow draw

/-- Completion of an encode: `OUT_LEN <- |OUT|`, `PHASE <- DONE_OK` (R144, R163). -/
def completeEncode (s : State) : State :=
  respond (nextDraw { s with outLen := outLenOf s.out.length s.draws, phase := .doneOk })

/-- Completion of a decode: `OUT_LEN <- px_cnt; END_PC <- pc; PHASE <- DONE_OK` (R165). -/
def completeDecode (s : State) : State :=
  respond { s with outLen := BitVec.ofNat 64 s.pxCnt, endPc := BitVec.ofNat 64 s.pc, phase := .doneOk }

-- Reset and the start of a call ----------------------------------------------------------------------------------

/-- `rst` taken (R210, R22): IDLE, no error, the running call abandoned without a result or a response, every other
register unspecified; what the host has issued and delivered is the host's (log 21). -/
def takeReset (s : State) : State :=
  nextDraw { freeWorking (freeHeaderRegs s) with
    op := Config.freeOp s.draws
    len := Config.freeLen s.draws
    phase := .idle
    err := none
    out := []
    pixOut := []
    hdrDone := false
    rst := false }

/-- The per-call initialisation (R21, R211, R212). -/
def initCall (s : State) : State :=
  { s with
    cache := clearedCache
    prev := Config.initialPrev
    run := 0
    pxCnt := 0
    out := []
    pixOut := []
    hdrDone := false }

/-- The command registers take a command's values, and its input sequence is the call's (R18, R30, R160). -/
def loadCommand (c : Command) (s : State) : State :=
  { s with
    op := c.op
    width := c.width
    height := c.height
    channels := c.channels
    colorspace := c.colorspace
    len := c.len
    inMem := c.bytes
    pixIn := c.pixels }

/-- A call starts: `ERR <- 0`, the initialisation, `PHASE <- ENC_RUN` or `DEC_RUN` (R160). A command with OP 0 or 3 starts
none (R18; log 6). -/
def startCall (c : Command) (s : State) : State :=
  match operationOf c.op with
  | .nothing => s
  | .encode => { initCall (loadCommand c s) with err := none, phase := .encRun }
  | .decode => { initCall (loadCommand c s) with err := none, phase := .decRun }

/-- The host's move when no call is running: the oldest command is accepted; with none the block waits (R23, R160). -/
def hostStep (s : State) : Result :=
  match s.cmd with
  | [] => wait s
  | c :: rest => .next (startCall c { s with cmd := rest })

-- The shape of an item's meaning ---------------------------------------------------------------------------------

/-- An item is emitted by the encoder in ENC_RUN and executed by the decoder in DEC_RUN; with no call running nothing
acts on it (R10, R23, R180; log 13). -/
def byPhase (s : State) (emitting executing : State → State) : Result :=
  match s.phase with
  | .encRun => .next (emitting s)
  | .decRun => .next (executing s)
  | .idle => wait s
  | .doneOk => wait s
  | .doneErr => wait s

/-- The decoder's commit (R117). -/
def commitDecoded (p : Pixel) (cnt : Nat) (s : State) : State :=
  let s := pixOutTimes p cnt s
  let s := writeCache p { s with prev := p }
  { s with pxCnt := s.pxCnt + cnt }

/-- The encoder's commit after a chunk that is not a RUN (R140). -/
def commitEncoded (p : Pixel) (s : State) : State := { writeCache p s with prev := p }

end Sys2Proof.Machine
end

