-- ==== Sys2Proof/Machine/Delta.lean ====
section
/-!
DEFINITION. The delta chunks DIFF and LUMA (spec/42_decoder.md R114, R115; spec/43_encoder.md R138, R139).
-/

namespace Sys2Proof.Machine

/-- DIFF. Executed: the three deltas applied to `prev` (R114), committed once (R117). Emitted: one byte (R138). -/
def execDiff (dr dg db : Int) (s : State) : Result :=
  byPhase s (emit (encode (.diff dr dg db))) (commitDecoded (applyDeltas s.prev dr dg db) 1)

/-- LUMA. Executed: `dr = dg + dr_dg`, `db = dg + db_dg`, applied to `prev` (R115), committed once (R117). Emitted: two
bytes (R139). -/
def execLuma (dg drDg dbDg : Int) (s : State) : Result :=
  byPhase s (emit (encode (.luma dg drDg dbDg)))
    (commitDecoded (applyDeltas s.prev (dg + drDg) dg (dg + dbDg)) 1)

end Sys2Proof.Machine
end

