-- ==== Sys2Proof/Machine/Framing.lean ====
section
/-!
DEFINITION. The framing items HEADER and END (spec/40_header_codec.md R80, R81, R84; spec/44_operations.md R161 to R163,
R166; spec/43_encoder.md R144), and the two header functions.
-/

namespace Sys2Proof.Machine

/-- `encode_header(width, height, channels, colorspace) -> bytes[14]` (R80). -/
def encodeHeader (w h : BitVec 32) (c cs : Byte) : Except ErrorKind (List Byte) :=
  if w = 0 ∨ h = 0 then .error .invalidDimensions
  else if channelsLegal c = false then .error .invalidChannelCount
  else .ok (encode (.header w h c cs))

/-- The error a decode raises for bytes that are no item (R82, R183). -/
def decodeErrorKind : DecodeError → ErrorKind
  | .truncated => .truncatedInput
  | .badMagic => .badMagic
  | .notEndMarker => .truncatedInput

/-- The fields `decode_header` returns (R81). -/
structure HeaderFields where
  width : BitVec 32
  height : BitVec 32
  channels : Byte
  colorspace : Byte
  deriving DecidableEq, Repr

/-- `decode_header(bytes) -> Header` (R81): length, magic, channel count, in this order; nothing else is tested (R83). -/
def decodeHeader (bs : List Byte) : Except ErrorKind HeaderFields :=
  match decodeHeaderItem bs with
  | .error e => .error (decodeErrorKind e)
  | .ok (i, _) =>
    match i with
    | .header w h c cs => if channelsLegal c then .ok ⟨w, h, c, cs⟩ else .error .invalidChannelCount
    | _ => .error .badMagic

/-- HEADER emitted: the checks of R80 and R161, `npix`, and the 14 bytes (R162). -/
def emitHeader (w h : BitVec 32) (c cs : Byte) (s : State) : State :=
  match encodeHeader w h c cs with
  | .error e => raise e s
  | .ok bs =>
    let s := { s with npix := w.toNat * h.toNat }
    if s.len.toNat = s.npix then { emit bs s with hdrDone := true } else raise .bufferSizeMismatch s

/-- HEADER executed: the channel check of R81, then the fields, `npix` and `pc` (R84). -/
def acceptHeader (w h : BitVec 32) (c cs : Byte) (s : State) : State :=
  if channelsLegal c then
    { s with
      width := w
      height := h
      channels := c
      colorspace := cs
      npix := w.toNat * h.toNat
      pc := Config.headerBytes
      hdrDone := true }
  else raise .invalidChannelCount s

/-- HEADER (R80, R81, R84, R161, R162). -/
def execHeader (w h : BitVec 32) (c cs : Byte) (s : State) : Result :=
  byPhase s (emitHeader w h c cs) (acceptHeader w h c cs)

/-- END. Emitted: the eight bytes, and the encode is complete (R144, R163). The decoder does nothing with one: it never
reads it (R166; log 13). -/
def execEndMarker (s : State) : Result :=
  byPhase s (fun s => completeEncode (emit (encode .endMarker) s)) id

end Sys2Proof.Machine
end

