-- ==== Sys2Proof/Machine/Index.lean ====
section
/-!
DEFINITION. The INDEX chunk (spec/42_decoder.md R113; spec/43_encoder.md R137).
-/

namespace Sys2Proof.Machine

/-- INDEX. Executed: the Pixel of the slot, never written or not (R113), committed once, the cache write included (R117,
conflict C1). Emitted: the slot number (R137). -/
def execIndex (slot : Slot) (s : State) : Result :=
  byPhase s (emit (encode (.index slot))) (commitDecoded (readSlot s slot) 1)

end Sys2Proof.Machine
end

