-- ==== Sys2Proof/Machine/Literal.lean ====
section
/-!
DEFINITION. The literal chunks RGB and RGBA (spec/42_decoder.md R111, R112; spec/43_encoder.md R141, R142).
-/

namespace Sys2Proof.Machine

/-- RGB. Executed: the Pixel of the three raw bytes with `prev`'s alpha (R112), committed once (R117). Emitted:
`FE r g b` (R141). -/
def execRgb (r g b : Byte) (s : State) : Result :=
  byPhase s (emit (encode (.rgb r g b))) (commitDecoded ⟨r, g, b, s.prev.a⟩ 1)

/-- RGBA. Executed: the Pixel of the four raw bytes (R111), committed once (R117). Emitted: `FF r g b a` (R142). -/
def execRgba (r g b a : Byte) (s : State) : Result :=
  byPhase s (emit (encode (.rgba r g b a))) (commitDecoded ⟨r, g, b, a⟩ 1)

end Sys2Proof.Machine
end

