-- ==== Sys2Proof/Machine/Run.lean ====
section
/-!
DEFINITION. The RUN chunk (spec/42_decoder.md R116; spec/43_encoder.md R133, R134, R143).
-/

namespace Sys2Proof.Machine

/-- RUN. Executed: `prev` repeated `n` times, cut to the Pixels still needed (R116), committed (R117). Emitted: the run's
byte, and the pending run is over (R133, R134, R143). -/
def execRun (n : Nat) (s : State) : Result :=
  byPhase s (fun s => { emit (encode (.run n)) s with run := 0 })
    (commitDecoded s.prev (min n (s.npix - s.pxCnt)))

end Sys2Proof.Machine
end

