-- ==== Sys2Proof/Machine/Decoder.lean ====
section
/-!
DEFINITION. The agent DEC: chunk fetch, dispatch and completion (spec/42_decoder.md R105 to R110, R120;
spec/44_operations.md R165).
-/

namespace Sys2Proof.Machine

/-- The bytes of the chunk at `pc`: its first byte gives its length, then its payload is read (R106). -/
def fetchChunk (s : State) : Fetched (List Byte) :=
  match memReadByte s s.pc with
  | .pastEnd => .pastEnd
  | .withheld => .withheld
  | .got b =>
    match memRead s (s.pc + 1) ((chunkKind b).length - 1) with
    | .pastEnd => .pastEnd
    | .withheld => .withheld
    | .got payload => .got (b :: payload)

/-- `pc` past the chunk just read (R106). -/
def advancePc (n : Nat) (s : State) : State := { s with pc := s.pc + n }

/-- One step of DEC: while Pixels are needed, fetch, dispatch and commit one chunk (R107, R120); then the call is
complete (R165). -/
def decoderStep (s : State) : Result :=
  if s.pxCnt < s.npix then
    match fetchChunk s with
    | .pastEnd => .next (raise .truncatedInput s)
    | .withheld => wait s
    | .got bs =>
      match decodeItem .body bs with
      | .ok (i, _) => exec i (advancePc bs.length s)
      | .error _ => .next (raise .truncatedInput s)
  else .next (completeDecode s)

end Sys2Proof.Machine
end

