-- ==== Sys2Proof/Machine/Encoder.lean ====
section
/-!
DEFINITION. The agent ENC: pixel fetch, run detector, operation selector, end flush and end marker (spec/43_encoder.md
R130 to R145).
-/

namespace Sys2Proof.Machine

/-- The operation selector: the chunk of the first applicable row, for a Pixel that is not a repeat (R135). -/
def selectChunk (s : State) (p : Pixel) : Instr :=
  let d := pixelDeltas p s.prev
  if readSlot s (pixelHash p) = p then .index (pixelHash p)
  else if diffFits p s.prev then .diff d.dr d.dg d.db
  else if lumaFits p s.prev then .luma d.dg (d.dr - d.dg) (d.db - d.dg)
  else if sameAlpha p s.prev then .rgb p.r p.g p.b
  else .rgba p.r p.g p.b p.a

/-- Run extend (R133): the RUN of 62 is flushed in the step of its 62nd Pixel. -/
def extendRun (s : State) : Result :=
  let s := { s with run := s.run + 1 }
  if s.run = Config.runMax then exec (.run Config.runMax) s else .next s

/-- Run break (R134): the pending run, if any, is emitted first. -/
def breakRun (s : State) : Result := if 0 < s.run then exec (.run s.run) s else .next s

/-- A Pixel that is not a repeat: run break, the selected chunk, commit (R134, R135, R140). -/
def encodePixel (p : Pixel) (s : State) : Result :=
  andThen (breakRun s) fun s => andThen (exec (selectChunk s p) s) fun s => .next (commitEncoded p s)

/-- One step of ENC: while Pixels remain, one Pixel (R131, R145); then the end flush of a pending run (R143); then the
end marker (R144). -/
def encoderStep (s : State) : Result :=
  if s.pxCnt < s.npix then
    match pixInAt s s.pxCnt with
    | none => wait s
    | some p =>
      let s := { s with pxCnt := s.pxCnt + 1 }
      if p = s.prev then extendRun s else encodePixel p s
  else if 0 < s.run then exec (.run s.run) s
  else exec .endMarker s

end Sys2Proof.Machine
end

