-- ==== Sys2Proof/Machine/HeaderCodec.lean ====
section
/-!
DEFINITION. The agent HDR: its one step in each operation (spec/10_state.md R10, spec/40_header_codec.md,
spec/44_operations.md R161, R162, R165).
-/

namespace Sys2Proof.Machine

/-- HDR in an encode: the HEADER of the command registers is emitted (R161, R162). -/
def headerEncodeStep (s : State) : Result := exec (.header s.width s.height s.channels s.colorspace) s

/-- HDR in a decode: `LEN < 14`, then the magic, then the fields (R81). -/
def headerDecodeStep (s : State) : Result :=
  if s.len.toNat < Config.headerBytes then .next (raise .truncatedInput s)
  else
    match memRead s 0 4 with
    | .pastEnd => .next (raise .truncatedInput s)
    | .withheld => wait s
    | .got magic =>
      if magic = Config.magic then
        match memRead s 0 Config.headerBytes with
        | .pastEnd => .next (raise .truncatedInput s)
        | .withheld => wait s
        | .got bs =>
          match decodeItem .start bs with
          | .ok (i, _) => exec i s
          | .error e => .next (raise (decodeErrorKind e) s)
      else .next (raise .badMagic s)

end Sys2Proof.Machine
end

