-- ==== Sys2Proof/Machine/Block.lean ====
section
/-!
DEFINITION. The block as a whole: whose turn it is (spec/10_state.md R10, R23; spec/70_reset_and_hazards.md R210), and how an
item is placed where the next step runs it (log 18).
-/

namespace Sys2Proof.Machine

/-- One move of the block: a reset request first, else the agent whose turn it is (R10, R210). -/
def blockStep (s : State) : Result :=
  if s.rst then .next (takeReset s)
  else
    match s.phase with
    | .encRun => if s.hdrDone then encoderStep s else headerEncodeStep s
    | .decRun => if s.hdrDone then decoderStep s else headerDecodeStep s
    | .idle => hostStep s
    | .doneOk => hostStep s
    | .doneErr => hostStep s

/-- A HEADER where HDR reads it: the first bytes of a decode that has just started. -/
def placeHeader (s : State) (bs : List Byte) : State :=
  { s with
    rst := false
    phase := .decRun
    hdrDone := false
    len := BitVec.ofNat 64 bs.length
    inMem := Memory.writeBytes s.inMem 0 bs }

/-- A chunk where DEC fetches it: at `pc` of a decode that still needs a Pixel. -/
def placeChunk (s : State) (bs : List Byte) : State :=
  { s with
    rst := false
    phase := .decRun
    hdrDone := true
    npix := s.pxCnt + 1
    len := BitVec.ofNat 64 (s.pc + bs.length)
    inMem := Memory.writeBytes s.inMem s.pc bs }

/-- END where ENC runs it: an encode whose Pixels are all consumed and whose run is flushed. -/
def placeEnd (s : State) : State :=
  { s with
    rst := false
    phase := .encRun
    hdrDone := true
    npix := s.pxCnt
    run := 0 }

/-- The instruction of a table row's word placed where the very next step runs it (log 17, log 18). -/
def placeTableWord (s : State) (nbits w : Nat) : State :=
  match tableWordLayout nbits w with
  | (.start, bs) => placeHeader s bs
  | (.body, bs) => placeChunk s bs
  | (.close, bs) => if bs = Config.endMarker then placeEnd s else s

end Sys2Proof.Machine
end

