-- ==== Sys2Proof/Machine/Step.lean ====
section
/-!
DEFINITION. One step of the machine, and the placing of an instruction for it (log 18).
-/

namespace Sys2Proof.Machine

/-- One step (R10, R210). -/
def step (s : State) : Host.Outcome State Fault Refusal := blockStep s

/-- `s` with the instruction of a table row's word where the very next step runs it (log 17, log 18). -/
def State.withFetchWord (s : State) (nbits w : Nat) : State := placeTableWord s nbits w

end Sys2Proof.Machine
end

