-- ==== Sys2Proof/Safety.lean ====
section
/-!
DEFINITION. What the claims about the whole machine are stated in: the invariants the spec gives for a running call, what
an observer of a result sees, and the relation of an encoder to a decoder of its output (spec/10_state.md R14 to R21,
spec/41_index_cache_and_diff.md R98 to R101, spec/44_operations.md R170).
-/

namespace Sys2Proof.Machine

/-- The slot invariant: a slot holds (0,0,0,0), or a Pixel whose own slot it is (R98). -/
def SlotInvariant (s : State) : Prop :=
  ∀ i : Slot, readSlot s i = Config.clearedPixel ∨ pixelHash (readSlot s i) = i

/-- `cache[hash(prev)] == prev` (R99, R100). -/
def PrevCached (s : State) : Prop := readSlot s (pixelHash s.prev) = s.prev

/-- Nothing but the initial `prev` has been processed, and the cache is untouched: the exception of R100. -/
def Untouched (s : State) : Prop := s.cache = clearedCache ∧ s.prev = Config.initialPrev

/-- The values a call starts from (R21). -/
def FreshCall (s : State) : Prop :=
  Untouched s ∧ s.run = 0 ∧ s.pxCnt = 0 ∧ s.out = [] ∧ s.pixOut = []

/-- ERR is 0 exactly when PHASE is not DONE_ERR (R19), and a call that has no result shows no output (R22, R170). -/
def StatusInvariant (s : State) : Prop :=
  (s.err = none ↔ s.phase ≠ .doneErr) ∧
    (s.phase = .doneErr ∨ s.phase = .idle → s.out = [] ∧ s.pixOut = [])

/-- What holds of the cache and `prev` while a call runs: the cleared values before and at the first step, the slot
invariant, and R99 and R100 after it. -/
def CacheInvariant (s : State) : Prop :=
  s.phase.running = true →
    (s.hdrDone = false → Untouched s) ∧ SlotInvariant s ∧
      (Untouched s ∧ (s.phase = .decRun → s.pxCnt = 0) ∨ PrevCached s)

/-- The decoder's counters: `0 <= px_cnt <= npix` (R15), `14 <= pc <= LEN` (R16), one output Pixel per count (R117). -/
def DecoderCounters (s : State) : Prop :=
  s.phase = .decRun →
    s.pixOut.length = s.pxCnt ∧ s.out = [] ∧
      (s.hdrDone = false → s.pxCnt = 0) ∧
      (s.hdrDone = true →
        s.pxCnt ≤ s.npix ∧ s.npix = s.width.toNat * s.height.toNat ∧ Config.headerBytes ≤ s.pc ∧ s.pc ≤ s.len.toNat)

/-- The encoder's counters: `px_cnt <= npix = WIDTH * HEIGHT = LEN` (R15, R161), `run <= 61` between steps and never more
than the Pixels consumed (R14, R133), and the size bound of R147. -/
def EncoderCounters (s : State) : Prop :=
  s.phase = .encRun →
    s.pixOut = [] ∧ s.run ≤ s.pxCnt ∧ s.run ≤ 61 ∧
      (s.hdrDone = false → s.pxCnt = 0 ∧ s.out = []) ∧
      (s.hdrDone = true →
        s.pxCnt ≤ s.npix ∧ s.npix = s.width.toNat * s.height.toNat ∧ s.npix = s.len.toNat ∧
          14 ≤ s.out.length ∧ s.out.length + (if s.run = 0 then 0 else 1) ≤ 14 + 5 * s.pxCnt)

/-- Every byte memory the state holds is in its canonical form. -/
def MemoriesCanonical (s : State) : Prop :=
  s.inMem.wf = true ∧ ∀ c ∈ s.cmd, c.bytes.wf = true

/-- An encoder `e` and a decoder `d` of what it has emitted, at a chunk boundary (R101): the same `prev`; equal caches but
for slot 53, which may hold (0,0,0,0) in the encoder and the initial `prev` in the decoder; and the decoder's output is
the encoder's input so far, less its pending run. -/
def DecoderFollows (e d : State) : Prop :=
  d.phase = .decRun ∧ d.prev = e.prev ∧ d.npix = e.npix ∧
    (∀ i : Slot, readSlot d i = readSlot e i ∨
      i = 53 ∧ readSlot e i = Config.clearedPixel ∧ readSlot d i = Config.initialPrev) ∧
    d.pxCnt + e.run = e.pxCnt ∧ d.pixOut ++ List.replicate e.run e.prev = e.pixIn.take e.pxCnt

/-- What the commit of `cnt` copies of `p` leaves (R117): the output Pixels, `prev`, the slot of `p` and no other slot,
and `px_cnt`; nothing else changes, and no flag is written. -/
def Commits (s t : State) (p : Pixel) (cnt : Nat) : Prop :=
  t.pixOut = s.pixOut ++ List.replicate cnt p ∧ t.prev = p ∧ t.pxCnt = s.pxCnt + cnt ∧
    (∀ i : Slot, readSlot t i = if i = pixelHash p then p else readSlot s i) ∧
    { t with pixOut := s.pixOut, prev := s.prev, pxCnt := s.pxCnt, cache := s.cache } = s

/-- What the end of a call in error `e` leaves: PHASE and ERR (R180), and one response that says so (R169). -/
def EndsInError (s t : State) (e : ErrorKind) : Prop :=
  t.phase = .doneErr ∧ t.err = some e ∧ ∃ r, t.rsp = s.rsp ++ [r] ∧ r.phase = .doneErr ∧ r.err = some e

/-- A list of items executed one after the other. -/
def execAll : List Instr → State → Result
  | [], s => .next s
  | i :: is, s => andThen (exec i s) (execAll is)

end Sys2Proof.Machine
end

