-- ==== Sys2Proof/Certificates/Slice0/Obligations.lean ====
section
/-!
DEFINITION. The statements about the model, each formalising a rule of spec/. What is not a rule of the spec but the
model's choice is said in the docstring with its log entry. A statement about a free value holds for every value of it.
-/

open Sys2Proof Sys2Proof.Machine

-- Encodings ------------------------------------------------------------------------------------------------------

/-- R61, R66: every item whose operands are in range is read back from its bytes, whatever follows them. The field
layouts of DIFF and LUMA are the ones the spec takes from general knowledge (R58, R59; logs 14, 15). -/
def Obligations.DecodeOfEncodedItem : Prop :=
  ∀ (i : Instr) (rest : List Byte), i.wf = true → decodeItem i.place (encode i ++ rest) = .ok (i, rest)

/-- R53, R61, R63: what the chunk decoder reads is a well-formed chunk, and encoding it gives back the bytes it was read
from; so every chunk byte string has one reading and no bit of it is dropped. Field layouts as in logs 14, 15. -/
def Obligations.EncodeOfDecodedChunk : Prop :=
  ∀ (bs rest : List Byte) (i : Instr), decodeChunk bs = .ok (i, rest) →
    i.isChunk = true ∧ i.wf = true ∧ encode i ++ rest = bs ∧ bs.length = i.length + rest.length

/-- R53: the kind and the length of a chunk, from its first byte alone, over all 256 values. -/
def Obligations.FirstByteSelectsChunk : Prop :=
  ∀ b : Byte,
    (b.toNat = 0xFE → chunkKind b = .rgb ∧ (chunkKind b).length = 4) ∧
    (b.toNat = 0xFF → chunkKind b = .rgba ∧ (chunkKind b).length = 5) ∧
    (b.toNat < 0xFE → b.toNat / 64 = 0 → chunkKind b = .index ∧ (chunkKind b).length = 1) ∧
    (b.toNat < 0xFE → b.toNat / 64 = 1 → chunkKind b = .diff ∧ (chunkKind b).length = 1) ∧
    (b.toNat < 0xFE → b.toNat / 64 = 2 → chunkKind b = .luma ∧ (chunkKind b).length = 2) ∧
    (b.toNat < 0xFE → b.toNat / 64 = 3 → chunkKind b = .run ∧ (chunkKind b).length = 1)

/-- R63: every first byte is a legal chunk; the chunk decoder rejects bytes exactly when they end before the chunk does,
and then as truncated. -/
def Obligations.ChunkRejectedOnlyIfTruncated : Prop :=
  (∀ e : DecodeError, decodeChunk [] = .error e ↔ e = .truncated) ∧
  ∀ (b : Byte) (rest : List Byte),
    (rest.length + 1 < (chunkKind b).length → decodeChunk (b :: rest) = .error .truncated) ∧
    ((chunkKind b).length ≤ rest.length + 1 →
      ∃ i, decodeChunk (b :: rest) = .ok (i, rest.drop ((chunkKind b).length - 1)))

/-- R111 to R116, R81: the words of the rules' examples, written out bit by bit, are the items they stand for. DIFF and
LUMA are in the layouts of logs 14 and 15. -/
def Obligations.SpecWordsDecode : Prop :=
  decodeChunk [0b11111110, 0x0C, 0x22, 0x38] = .ok (.rgb 12 34 56, []) ∧
  decodeChunk [0b11111111, 0x01, 0x02, 0x03, 0x04] = .ok (.rgba 1 2 3 4, []) ∧
  decodeChunk [0b00001011] = .ok (.index 11, []) ∧
  decodeChunk [0b01111011] = .ok (.diff 1 0 1, []) ∧
  decodeChunk [0b10101001, 0b10001000] = .ok (.luma 9 0 0, []) ∧
  decodeChunk [0b11111101] = .ok (.run 62, []) ∧
  decodeHeaderItem [0x71, 0x6F, 0x69, 0x66, 0, 0, 0, 0x0D, 0, 0, 0, 0x0A, 3, 1] = .ok (.header 13 10 3 1, [])

/-- R51, R33: the 14 bytes of a header; width and height are big-endian. -/
def Obligations.HeaderBytesAreBigEndian : Prop :=
  ∀ (w h : BitVec 32) (c cs : Byte), ∃ w0 w1 w2 w3 h0 h1 h2 h3 : Byte,
    encode (.header w h c cs) = [0x71, 0x6F, 0x69, 0x66, w0, w1, w2, w3, h0, h1, h2, h3, c, cs] ∧
    w.toNat = w0.toNat * 2 ^ 24 + w1.toNat * 2 ^ 16 + w2.toNat * 2 ^ 8 + w3.toNat ∧
    h.toNat = h0.toNat * 2 ^ 24 + h1.toNat * 2 ^ 16 + h2.toNat * 2 ^ 8 + h3.toNat

-- The header functions -------------------------------------------------------------------------------------------

/-- R80: `encode_header`, its two errors in the order they are tested, else the 14 bytes. -/
def Obligations.EncodeHeaderResult : Prop :=
  ∀ (w h : BitVec 32) (c cs : Byte),
    encodeHeader w h c cs =
      if w = 0 ∨ h = 0 then .error .invalidDimensions
      else if c ≠ 3 ∧ c ≠ 4 then .error .invalidChannelCount
      else .ok [0x71, 0x6F, 0x69, 0x66,
        w.extractLsb' 24 8, w.extractLsb' 16 8, w.extractLsb' 8 8, w.extractLsb' 0 8,
        h.extractLsb' 24 8, h.extractLsb' 16 8, h.extractLsb' 8 8, h.extractLsb' 0 8, c, cs]

/-- R81, R82, R83: `decode_header`, its three errors in the order they are tested, else the four fields; a zero width or
height passes, and so does any colorspace. -/
def Obligations.DecodeHeaderResult : Prop :=
  (∀ bs : List Byte, bs.length < 14 → decodeHeader bs = .error .truncatedInput) ∧
  ∀ (m0 m1 m2 m3 w0 w1 w2 w3 h0 h1 h2 h3 c cs : Byte) (rest : List Byte),
    let r := decodeHeader ([m0, m1, m2, m3, w0, w1, w2, w3, h0, h1, h2, h3, c, cs] ++ rest)
    if [m0, m1, m2, m3] ≠ [0x71, 0x6F, 0x69, 0x66] then r = .error .badMagic
    else if c ≠ 3 ∧ c ≠ 4 then r = .error .invalidChannelCount
    else ∃ f, r = .ok f ∧ f.channels = c ∧ f.colorspace = cs ∧
      f.width.toNat = w0.toNat * 2 ^ 24 + w1.toNat * 2 ^ 16 + w2.toNat * 2 ^ 8 + w3.toNat ∧
      f.height.toNat = h0.toNat * 2 ^ 24 + h1.toNat * 2 ^ 16 + h2.toNat * 2 ^ 8 + h3.toNat

/-- The spec's inference "Round trip of the header" (R85): the two header functions are inverse on headers with non-zero
width and height. -/
def Obligations.HeaderFunctionsAreInverse : Prop :=
  (∀ (w h : BitVec 32) (c cs : Byte), w ≠ 0 → h ≠ 0 → c = 3 ∨ c = 4 →
    ∃ bs, encodeHeader w h c cs = .ok bs ∧ decodeHeader bs = .ok ⟨w, h, c, cs⟩) ∧
  ∀ (bs : List Byte) (f : HeaderFields), bs.length = 14 → decodeHeader bs = .ok f → f.width ≠ 0 → f.height ≠ 0 →
    encodeHeader f.width f.height f.channels f.colorspace = .ok bs

-- Hash, cache ports, differences ---------------------------------------------------------------------------------

/-- R90: the hash. -/
def Obligations.HashOfPixel : Prop :=
  ∀ p : Pixel, (pixelHash p).val = (p.r.toNat * 3 + p.g.toNat * 5 + p.b.toNat * 7 + p.a.toNat * 11) % 64

/-- R91, R92: a cache write reaches the written Pixel's own slot and no other. -/
def Obligations.CacheWriteReadsBack : Prop :=
  ∀ (s : State) (p : Pixel) (i : Slot), readSlot (writeCache p s) i = if i = pixelHash p then p else readSlot s i

/-- The spec's inference "The two sides are inverse" (R97): applying the difference of two bytes to the second rebuilds
the first; hence the deltas of R93 applied to `prev` by R96 rebuild every Pixel with `prev`'s alpha. -/
def Obligations.DeltasRebuildPixel : Prop :=
  (∀ x y : Byte, u8 (byteInt y + s8 (byteInt x - byteInt y)) = x) ∧
  ∀ p prev : Pixel, p.a = prev.a →
    applyDeltas prev (pixelDeltas p prev).dr (pixelDeltas p prev).dg (pixelDeltas p prev).db = p

/-- The spec's two inferences about widths (R90 "Bits 7:6 of every channel do not affect the hash", R95 "it makes no
difference"): the hash needs only six bits of each channel, and the two subtractions of the LUMA test may wrap. -/
def Obligations.ArithmeticWidthsMakeNoDifference : Prop :=
  (∀ p q : Pixel, p.r.toNat % 64 = q.r.toNat % 64 → p.g.toNat % 64 = q.g.toNat % 64 →
    p.b.toNat % 64 = q.b.toNat % 64 → p.a.toNat % 64 = q.a.toNat % 64 → pixelHash p = pixelHash q) ∧
  ∀ p prev : Pixel,
    lumaFits p prev = true ↔
      p.a = prev.a ∧ -32 ≤ (pixelDeltas p prev).dg ∧ (pixelDeltas p prev).dg ≤ 31 ∧
      -8 ≤ s8 ((pixelDeltas p prev).dr - (pixelDeltas p prev).dg) ∧
      s8 ((pixelDeltas p prev).dr - (pixelDeltas p prev).dg) ≤ 7 ∧
      -8 ≤ s8 ((pixelDeltas p prev).db - (pixelDeltas p prev).dg) ∧
      s8 ((pixelDeltas p prev).db - (pixelDeltas p prev).dg) ≤ 7

-- The chunks executed by the decoder -----------------------------------------------------------------------------

/-- R112, R117: the bytes `FE r g b` are RGB, and it completes with the three raw channels and `prev`'s alpha. -/
def Obligations.RgbExecutes : Prop :=
  ∀ (s : State) (r g b : Byte) (rest : List Byte), s.phase = .decRun →
    decodeChunk (0xFE :: r :: g :: b :: rest) = .ok (.rgb r g b, rest) ∧
    ∃ t, exec (.rgb r g b) s = .next t ∧ Commits s t ⟨r, g, b, s.prev.a⟩ 1

/-- R111, R117: the bytes `FF r g b a` are RGBA, and it completes with the four raw channels. -/
def Obligations.RgbaExecutes : Prop :=
  ∀ (s : State) (r g b a : Byte) (rest : List Byte), s.phase = .decRun →
    decodeChunk (0xFF :: r :: g :: b :: a :: rest) = .ok (.rgba r g b a, rest) ∧
    ∃ t, exec (.rgba r g b a) s = .next t ∧ Commits s t ⟨r, g, b, a⟩ 1

/-- R113, R117: a byte with top bits `00` is INDEX of its low six bits, and it completes with the slot's Pixel; its commit
writes the slot of that Pixel like any other. -/
def Obligations.IndexExecutes : Prop :=
  ∀ (s : State) (slot : Slot) (rest : List Byte), s.phase = .decRun →
    decodeChunk (BitVec.ofNat 8 slot.val :: rest) = .ok (.index slot, rest) ∧
    ∃ t, exec (.index slot) s = .next t ∧ Commits s t (readSlot s slot) 1

/-- R114, R117: a byte `01 x y z` is DIFF of `x - 2`, `y - 2`, `z - 2` (the layout of log 14), and it completes with `prev`
plus the deltas, wrapping modulo 256, alpha unchanged. -/
def Obligations.DiffExecutes : Prop :=
  (∀ (x y z : Fin 4) (rest : List Byte),
    decodeChunk (BitVec.ofNat 8 (0x40 + x.val * 16 + y.val * 4 + z.val) :: rest) =
      .ok (.diff ((x.val : Int) - 2) ((y.val : Int) - 2) ((z.val : Int) - 2), rest)) ∧
  ∀ (s : State) (dr dg db : Int), s.phase = .decRun → (Instr.diff dr dg db).wf = true →
    ∃ t p, exec (.diff dr dg db) s = .next t ∧ Commits s t p 1 ∧
      (p.r.toNat : Int) = (s.prev.r.toNat + dr) % 256 ∧ (p.g.toNat : Int) = (s.prev.g.toNat + dg) % 256 ∧
      (p.b.toNat : Int) = (s.prev.b.toNat + db) % 256 ∧ p.a = s.prev.a

/-- R115, R117: the bytes `10 x`, `y z` are LUMA of `x - 32`, `y - 8`, `z - 8` (the nibble order of log 15), and it completes
with `prev` plus `dg + dr_dg`, `dg`, `dg + db_dg`, wrapping, alpha unchanged. -/
def Obligations.LumaExecutes : Prop :=
  (∀ (x : Fin 64) (y z : Fin 16) (rest : List Byte),
    decodeChunk (BitVec.ofNat 8 (0x80 + x.val) :: BitVec.ofNat 8 (y.val * 16 + z.val) :: rest) =
      .ok (.luma ((x.val : Int) - 32) ((y.val : Int) - 8) ((z.val : Int) - 8), rest)) ∧
  ∀ (s : State) (dg drDg dbDg : Int), s.phase = .decRun → (Instr.luma dg drDg dbDg).wf = true →
    ∃ t p, exec (.luma dg drDg dbDg) s = .next t ∧ Commits s t p 1 ∧
      (p.r.toNat : Int) = (s.prev.r.toNat + (dg + drDg)) % 256 ∧ (p.g.toNat : Int) = (s.prev.g.toNat + dg) % 256 ∧
      (p.b.toNat : Int) = (s.prev.b.toNat + (dg + dbDg)) % 256 ∧ p.a = s.prev.a

/-- R116, R117: a byte with top bits `11`, neither `FE` nor `FF`, is RUN of its low six bits plus one, and it completes with
`prev` repeated `min(n, npix - px_cnt)` times, which is at least once while a Pixel is needed. -/
def Obligations.RunExecutes : Prop :=
  ∀ (s : State) (n : Nat) (rest : List Byte), s.phase = .decRun → (Instr.run n).wf = true →
    decodeChunk (BitVec.ofNat 8 (0xC0 + (n - 1)) :: rest) = .ok (.run n, rest) ∧
    ∃ t, exec (.run n) s = .next t ∧ Commits s t s.prev (min n (s.npix - s.pxCnt)) ∧
      (s.pxCnt < s.npix → s.pxCnt < t.pxCnt ∧ t.pxCnt ≤ s.npix)

/-- R117, R120, R44: a chunk executed by the decoder changes the output Pixels, `prev`, `px_cnt` and the slot of the new
`prev`, and nothing else: no register, no flag, no other slot, no byte of IN, no channel. -/
def Obligations.ChunkExecutionFrame : Prop :=
  ∀ (s t : State) (i : Instr), s.phase = .decRun → i.isChunk = true → exec i s = .next t →
    { t with pixOut := s.pixOut, prev := s.prev, pxCnt := s.pxCnt, cache := s.cache } = s ∧
    (∀ slot : Slot, slot ≠ pixelHash t.prev → readSlot t slot = readSlot s slot) ∧
    s.pixOut <+: t.pixOut ∧ ∀ a : Nat, Memory.read t.inMem a = Memory.read s.inMem a

-- The chunks emitted by the encoder ------------------------------------------------------------------------------

/-- R141, R142: RGB and RGBA are emitted as their tag byte and raw channels. -/
def Obligations.LiteralChunksEmitted : Prop :=
  ∀ s : State, s.phase = .encRun →
    (∀ r g b : Byte, ∃ t, exec (.rgb r g b) s = .next t ∧ t.out = s.out ++ [0xFE, r, g, b]) ∧
    ∀ r g b a : Byte, ∃ t, exec (.rgba r g b a) s = .next t ∧ t.out = s.out ++ [0xFF, r, g, b, a]

/-- R137, R138, R139: INDEX, DIFF and LUMA are emitted as the bytes of their rules. -/
def Obligations.TaggedChunksEmitted : Prop :=
  ∀ s : State, s.phase = .encRun →
    (∀ slot : Slot, ∃ t v, exec (.index slot) s = .next t ∧ t.out = s.out ++ [v] ∧ v.toNat = slot.val) ∧
    (∀ dr dg db : Int, (Instr.diff dr dg db).wf = true →
      ∃ t v, exec (.diff dr dg db) s = .next t ∧ t.out = s.out ++ [v] ∧
        (v.toNat : Int) = 0x40 + (dr + 2) * 16 + (dg + 2) * 4 + (db + 2)) ∧
    ∀ dg drDg dbDg : Int, (Instr.luma dg drDg dbDg).wf = true →
      ∃ t v v', exec (.luma dg drDg dbDg) s = .next t ∧ t.out = s.out ++ [v, v'] ∧
        (v.toNat : Int) = 0x80 + (dg + 32) ∧ (v'.toNat : Int) = (drDg + 8) * 16 + (dbDg + 8)

/-- R133, R134, R143: RUN is emitted as `0xC0 + (n - 1)`, and the pending run is over. -/
def Obligations.RunEmitted : Prop :=
  ∀ (s : State) (n : Nat), s.phase = .encRun → (Instr.run n).wf = true →
    ∃ t v, exec (.run n) s = .next t ∧ t.out = s.out ++ [v] ∧ v.toNat = 0xC0 + (n - 1) ∧ t.run = 0

/-- R31, R133, R134, R137 to R143: emitting a chunk appends its encoding to OUT, a RUN also clears `run`, and nothing else
changes: the cache, `prev`, the counters, the flags, the input sequences and the channels stay. -/
def Obligations.ChunkEmissionFrame : Prop :=
  ∀ (s t : State) (i : Instr), s.phase = .encRun → i.isChunk = true → exec i s = .next t →
    { t with out := s.out, run := s.run } = s ∧ ((∀ n, i ≠ .run n) → t.run = s.run) ∧
    (∀ n, i = .run n → t.run = 0) ∧ t.out = s.out ++ encode i ∧ ∀ a : Nat, Memory.read t.inMem a = Memory.read s.inMem a

-- HEADER and END -------------------------------------------------------------------------------------------------

/-- R84: HEADER executed writes the four header registers, `npix` and `pc`, and changes nothing else but the turn, which
goes to the decoder through the model's own field `hdrDone` (log 5, DEDUCED); a zero width or height is accepted (R83).
A channel byte other than 3 and 4 is the next statement's. -/
def Obligations.HeaderExecutes : Prop :=
  ∀ (s : State) (w h : BitVec 32) (c cs : Byte), s.phase = .decRun → c = 3 ∨ c = 4 →
    ∃ t, exec (.header w h c cs) s = .next t ∧
      t.width = w ∧ t.height = h ∧ t.channels = c ∧ t.colorspace = cs ∧ t.npix = w.toNat * h.toNat ∧ t.pc = 14 ∧
      t.hdrDone = true ∧
      { t with
        width := s.width, height := s.height, channels := s.channels, colorspace := s.colorspace
        npix := s.npix, pc := s.pc, hdrDone := s.hdrDone } = s

/-- R185: HEADER executed with another channel byte ends the call in `InvalidChannelCount`. -/
def Obligations.HeaderWithBadChannels : Prop :=
  ∀ (s : State) (w h : BitVec 32) (c cs : Byte), s.phase = .decRun → c ≠ 3 ∧ c ≠ 4 →
    ∃ t, exec (.header w h c cs) s = .next t ∧ EndsInError s t .invalidChannelCount

/-- R161, R162: HEADER emitted, when the pre-checks pass: `npix`, the 14 bytes, the turn to the encoder (the
model's own field `hdrDone`, log 5), nothing else. -/
def Obligations.HeaderEmitted : Prop :=
  ∀ (s : State) (w h : BitVec 32) (c cs : Byte), s.phase = .encRun → w ≠ 0 → h ≠ 0 → c = 3 ∨ c = 4 →
    s.len.toNat = w.toNat * h.toNat →
    ∃ t bs, exec (.header w h c cs) s = .next t ∧ encodeHeader w h c cs = .ok bs ∧ bs.length = 14 ∧
      t.out = s.out ++ bs ∧ t.npix = w.toNat * h.toNat ∧ t.hdrDone = true ∧
      { t with out := s.out, npix := s.npix, hdrDone := s.hdrDone } = s

/-- R161, R162: the pre-checks of an encode, taken in HDR's step in the order they are tested, before anything is emitted;
when they pass, `npix` is the product and the 14 bytes of the header are appended, and nothing else changes but the turn,
the model's own field `hdrDone` (log 5, DEDUCED). -/
def Obligations.EncodePreChecks : Prop :=
  ∀ s : State, s.rst = false → s.phase = .encRun → s.hdrDone = false →
    ∃ t, step s = .next t ∧
      if s.width = 0 ∨ s.height = 0 then EndsInError s t .invalidDimensions
      else if s.channels ≠ 3 ∧ s.channels ≠ 4 then EndsInError s t .invalidChannelCount
      else if s.len.toNat ≠ s.width.toNat * s.height.toNat then EndsInError s t .bufferSizeMismatch
      else ∃ bs, encodeHeader s.width s.height s.channels s.colorspace = .ok bs ∧ bs.length = 14 ∧
        t = { s with npix := s.width.toNat * s.height.toNat, out := s.out ++ bs, hdrDone := true }

/-- R144: END emitted appends the eight bytes and completes the encode, with `OUT_LEN = |OUT|` where 64 bits hold it (log
12) and one response. That every other register and sequence stays is the model's choice: END_PC by log 26, and `cache`,
`prev`, `run`, `npix`, `px_cnt` and `pc` by log 27 (both DEDUCED; R170 does not say what they hold after completion). -/
def Obligations.EndMarkerEmitted : Prop :=
  ∀ s : State, s.phase = .encRun →
    ∃ t r, exec .endMarker s = .next t ∧ t.out = s.out ++ [0, 0, 0, 0, 0, 0, 0, 1] ∧ t.phase = .doneOk ∧
      (t.out.length < 2 ^ 64 → t.outLen.toNat = t.out.length) ∧
      t.rsp = s.rsp ++ [r] ∧ r.phase = .doneOk ∧ r.err = s.err ∧ r.outLen = t.outLen ∧
      { t with out := s.out, phase := s.phase, outLen := s.outLen, rsp := s.rsp, draws := s.draws } = s

/-- R166, R23, R180, the model's reading in log 13: the decoder does nothing with an END, and with no call running no item
has an effect. -/
def Obligations.ItemsWithoutEffect : Prop :=
  (∀ s : State, s.phase = .decRun → exec .endMarker s = .next s) ∧
  ∀ (s : State) (i : Instr), s.phase.running = false → exec i s = .next s

-- The decoder's step ---------------------------------------------------------------------------------------------

/-- R106, R110, R120: while a Pixel is needed, a step of the decoder runs the chunk whose bytes stand at `pc`, inside LEN,
with `pc` moved past it. -/
def Obligations.StepRunsFetchedChunk : Prop :=
  ∀ (s : State) (i : Instr) (bs : List Byte), s.rst = false → s.phase = .decRun → s.hdrDone = true →
    s.pxCnt < s.npix → s.pc + bs.length ≤ s.len.toNat → Memory.readBytes s.inMem s.pc bs.length = some bs →
    decodeChunk bs = .ok (i, []) → step s = exec i { s with pc := s.pc + bs.length }

/-- R81, R165: HDR's step in a decode runs the HEADER whose bytes stand at offset 0, inside LEN. -/
def Obligations.StepRunsHeader : Prop :=
  ∀ (s : State) (i : Instr) (bs : List Byte), s.rst = false → s.phase = .decRun → s.hdrDone = false →
    14 ≤ s.len.toNat → Memory.readBytes s.inMem 0 14 = some bs → decodeHeaderItem bs = .ok (i, []) →
    step s = exec i s

/-- R81, R82, R191: HDR's step in a decode raises `TruncatedInput` when LEN is below 14, whatever the bytes are, and
otherwise `BadMagic` when the first four bytes differ from the magic. -/
def Obligations.HeaderStepErrors : Prop :=
  ∀ s : State, s.rst = false → s.phase = .decRun → s.hdrDone = false →
    (s.len.toNat < 14 → ∃ t, step s = .next t ∧ EndsInError s t .truncatedInput) ∧
    ∀ m : List Byte, 14 ≤ s.len.toNat → Memory.readBytes s.inMem 0 4 = some m → m ≠ [0x71, 0x6F, 0x69, 0x66] →
      ∃ t, step s = .next t ∧ EndsInError s t .badMagic

/-- R106, R183: a chunk that is not wholly inside LEN, while a Pixel is needed, ends the call in `TruncatedInput`, by the one
operation that raises an error; what `pc` and the other working registers hold then is a free value (R180, U2; logs 7, 8). -/
def Obligations.TruncatedChunkRaises : Prop :=
  ∀ s : State, s.rst = false → s.phase = .decRun → s.hdrDone = true → s.pxCnt < s.npix →
    (s.len.toNat ≤ s.pc ∨ s.pc < s.len.toNat ∧
      ∃ b, Memory.read s.inMem s.pc = some b ∧ s.len.toNat < s.pc + (chunkKind b).length) →
    ∃ t, step s = .next t ∧ EndsInError s t .truncatedInput ∧ t = raise .truncatedInput s

/-- R169, in the model's form of waiting (logs 2, 3): an item the host has not delivered makes the block wait, and nothing
changes. First, any byte of the chunk at `pc`, when the chunk lies inside LEN (one that does not is TruncatedInput, R106);
second, any byte of the header that HDR still needs (log 24: the magic is tested as soon as its four bytes are there);
third, the encoder's next Pixel. -/
def Obligations.WithheldItemWaits : Prop :=
  ∀ s : State, s.rst = false →
    (s.phase = .decRun → s.hdrDone = true → s.pxCnt < s.npix →
      (s.pc < s.len.toNat ∧ Memory.read s.inMem s.pc = none ∨
        ∃ b, Memory.read s.inMem s.pc = some b ∧ s.pc + (chunkKind b).length ≤ s.len.toNat ∧
          ∃ k, k < (chunkKind b).length ∧ Memory.read s.inMem (s.pc + k) = none) →
      step s = .next s) ∧
    (s.phase = .decRun → s.hdrDone = false → 14 ≤ s.len.toNat →
      ((∃ k, k < 4 ∧ Memory.read s.inMem k = none) ∨
        Memory.readBytes s.inMem 0 4 = some [0x71, 0x6F, 0x69, 0x66] ∧ ∃ k, k < 14 ∧ Memory.read s.inMem k = none) →
      step s = .next s) ∧
    (s.phase = .encRun → s.hdrDone = true → s.pxCnt < s.npix → s.pixIn[s.pxCnt]? = none → step s = .next s)

/-- R107, R165, R166: when `px_cnt` has reached `npix` the decode is complete, whatever follows in IN: OUT_LEN is `px_cnt`,
END_PC is `pc`, and one response is given, with the registers as they then stand (log 22). That this is one step is log 4
(DESIGN CHOICE), and that nothing else changes (`cache`, `prev`, `run`, `npix`, `px_cnt`, `pc`) is log 27 (DEDUCED; R170
does not say it). -/
def Obligations.DecodeCompletes : Prop :=
  ∀ s : State, s.rst = false → s.phase = .decRun → s.hdrDone = true → s.npix ≤ s.pxCnt →
    s.pxCnt < 2 ^ 64 → s.pc < 2 ^ 64 →
    ∃ t r, step s = .next t ∧ t.phase = .doneOk ∧ t.outLen.toNat = s.pxCnt ∧ t.endPc.toNat = s.pc ∧
      t.rsp = s.rsp ++ [r] ∧ r.phase = .doneOk ∧ r.err = s.err ∧ r.outLen = t.outLen ∧ r.endPc = t.endPc ∧
      r.width = s.width ∧ r.height = s.height ∧ r.channels = s.channels ∧ r.colorspace = s.colorspace ∧
      { t with phase := s.phase, outLen := s.outLen, endPc := s.endPc, rsp := s.rsp } = s

-- The encoder's step ---------------------------------------------------------------------------------------------

/-- R131, R132, R133: a Pixel equal to `prev` extends the run and the step ends; the run of 62 is flushed at once. -/
def Obligations.RepeatExtendsRun : Prop :=
  ∀ s : State, s.rst = false → s.phase = .encRun → s.hdrDone = true → s.pxCnt < s.npix →
    s.pixIn[s.pxCnt]? = some s.prev →
    step s = .next
      (if s.run + 1 = 62 then { s with pxCnt := s.pxCnt + 1, run := 0, out := s.out ++ [0xFD] }
       else { s with pxCnt := s.pxCnt + 1, run := s.run + 1 })

/-- R131, R134, R135, R140: a Pixel that differs from `prev` breaks the pending run, emits its chunk, and is written to its
slot and to `prev`. -/
def Obligations.NewPixelEmitsChunk : Prop :=
  ∀ (s : State) (p : Pixel), s.rst = false → s.phase = .encRun → s.hdrDone = true → s.pxCnt < s.npix →
    s.pixIn[s.pxCnt]? = some p → p ≠ s.prev → s.run ≤ 61 →
    ∃ t, step s = .next t ∧
      t.out = s.out ++ (if s.run = 0 then [] else [BitVec.ofNat 8 (0xC0 + (s.run - 1))]) ++ encode (selectChunk s p) ∧
      t.run = 0 ∧ t.prev = p ∧ t.pxCnt = s.pxCnt + 1 ∧
      (∀ i : Slot, readSlot t i = if i = pixelHash p then p else readSlot s i) ∧
      { t with out := s.out, run := s.run, prev := s.prev, pxCnt := s.pxCnt, cache := s.cache } = s

/-- R135, R94, R95: the selector's fixed priority: INDEX, DIFF, LUMA, RGB, RGBA, the first whose condition holds. -/
def Obligations.SelectorPriority : Prop :=
  ∀ (s : State) (p : Pixel), ∃ dr dg db : Int,
    dr = s8 (byteInt p.r - byteInt s.prev.r) ∧ dg = s8 (byteInt p.g - byteInt s.prev.g) ∧
    db = s8 (byteInt p.b - byteInt s.prev.b) ∧
    selectChunk s p =
      if readSlot s (pixelHash p) = p then .index (pixelHash p)
      else if p.a = s.prev.a ∧ (-2 ≤ dr ∧ dr ≤ 1) ∧ (-2 ≤ dg ∧ dg ≤ 1) ∧ (-2 ≤ db ∧ db ≤ 1) then .diff dr dg db
      else if p.a = s.prev.a ∧ (-32 ≤ dg ∧ dg ≤ 31) ∧ (-8 ≤ dr - dg ∧ dr - dg ≤ 7) ∧ (-8 ≤ db - dg ∧ db - dg ≤ 7) then
        .luma dg (dr - dg) (db - dg)
      else if p.a = s.prev.a then .rgb p.r p.g p.b
      else .rgba p.r p.g p.b p.a

/-- The spec's inferences "Hence if the encoder emits DIFF ..." (R97) and "What the encoder's output never contains" (R148):
the selected chunk is a well-formed chunk that rebuilds the Pixel, on any decoder with the same `prev` and the same content
of the Pixel's slot; and for a Pixel that is no repeat it is not `DIFF 0,0,0`. -/
def Obligations.SelectedChunkRebuildsPixel : Prop :=
  ∀ (e d : State) (p : Pixel), d.phase = .decRun → d.prev = e.prev →
    readSlot d (pixelHash p) = readSlot e (pixelHash p) →
    (selectChunk e p).wf = true ∧ (selectChunk e p).isChunk = true ∧ (∀ n, selectChunk e p ≠ .run n) ∧
    (p ≠ e.prev → selectChunk e p ≠ .diff 0 0 0) ∧
    ∃ t, exec (selectChunk e p) d = .next t ∧ Commits d t p 1

/-- R143, R144: with all Pixels consumed, a pending run is flushed however short, and then the end marker is emitted.
That the flush and the end marker are one step each is the model's choice (log 4, DESIGN CHOICE). -/
def Obligations.EncoderTerminates : Prop :=
  ∀ s : State, s.rst = false → s.phase = .encRun → s.hdrDone = true → s.npix ≤ s.pxCnt →
    (0 < s.run → step s = exec (.run s.run) s) ∧ (s.run = 0 → step s = exec .endMarker s)

-- Calls and reset ------------------------------------------------------------------------------------------------

/-- R160: with no call running, a command with OP = ENCODE or DECODE starts a call: ERR is cleared, the working state has
its per-call values (R21), PHASE says which call runs, and the command registers are the command's; while a call runs no
command is accepted. The model's choices in it: acceptance with the initialisation is one step (log 4), the input sequences
come with the command (log 6), and `hdrDone` is false (log 5). -/
def Obligations.CommandStartsCall : Prop :=
  (∀ (s : State) (c : Command) (later : List Command), s.rst = false → s.phase.running = false → s.cmd = c :: later →
    c.op = 1 ∨ c.op = 2 →
    ∃ t, step s = .next t ∧ t.err = none ∧ t.phase = (if c.op = 1 then .encRun else .decRun) ∧
      (∀ i : Slot, readSlot t i = ⟨0, 0, 0, 0⟩) ∧ t.prev = ⟨0, 0, 0, 255⟩ ∧ t.run = 0 ∧ t.pxCnt = 0 ∧
      t.out = [] ∧ t.pixOut = [] ∧ t.hdrDone = false ∧
      t.op = c.op ∧ t.width = c.width ∧ t.height = c.height ∧ t.channels = c.channels ∧
      t.colorspace = c.colorspace ∧ t.len = c.len ∧ t.inMem = c.bytes ∧ t.pixIn = c.pixels ∧
      t.cmd = later ∧ t.rsp = s.rsp) ∧
  ∀ s t : State, s.rst = false → s.phase.running = true → step s = .next t → t.cmd = s.cmd

/-- R18, R23 and log 6: a command with OP 0 or 3 starts no call and changes nothing but the channel it came from; with no
command the block waits. -/
def Obligations.NothingStartsACallBut : Prop :=
  ∀ s : State, s.rst = false → s.phase.running = false →
    (∀ (c : Command) (later : List Command), s.cmd = c :: later → c.op = 0 ∨ c.op = 3 →
      step s = .next { s with cmd := later }) ∧
    (s.cmd = [] → step s = .next s)

/-- R44, R31, R18: a step while a call runs, no reset requested, leaves both input sequences alone and keeps OP and LEN (after
an error too: log 9, DEDUCED). Unless the call ends in error, outputs only grow and the header registers of an encode keep
the host's values; after an error those are free values and there is no output (R180, R170; logs 7, 10). -/
def Obligations.RunningStepKeepsInputs : Prop :=
  ∀ s t : State, s.rst = false → s.phase.running = true → step s = .next t →
    t.inMem = s.inMem ∧ t.pixIn = s.pixIn ∧ t.op = s.op ∧ t.len = s.len ∧ t.rst = false ∧
    s.rsp <+: t.rsp ∧
    (t.phase ≠ .doneErr → s.out <+: t.out ∧ s.pixOut <+: t.pixOut) ∧
    (s.phase = .encRun → t.phase ≠ .doneErr → t.width = s.width ∧ t.height = s.height ∧ t.channels = s.channels ∧
      t.colorspace = s.colorspace)

/-- R16: a step of the decoder that leaves the call running either changes nothing or moves `pc` forward by 1, 2, 4 or 5,
and never past LEN. -/
def Obligations.CursorMovesByChunkLength : Prop :=
  ∀ s t : State, s.rst = false → s.phase = .decRun → s.hdrDone = true → step s = .next t → t.phase = .decRun →
    t = s ∨ t.pc ≤ s.len.toNat ∧ (t.pc = s.pc + 1 ∨ t.pc = s.pc + 2 ∨ t.pc = s.pc + 4 ∨ t.pc = s.pc + 5)

/-- R210: a reset request is taken in the next step whatever the block does: IDLE, no error, the running call abandoned
without a result or a response, and then the block waits for a command. That the request goes before any other step, is
cleared by it and leaves the responses given is log 21 (DESIGN CHOICE); the form of waiting is log 3 (DEDUCED). -/
def Obligations.ResetRequestIsTaken : Prop :=
  ∀ s : State, s.rst = true →
    ∃ t, step s = .next t ∧ t.phase = .idle ∧ t.err = none ∧ t.out = [] ∧ t.pixOut = [] ∧ t.rst = false ∧
      t.rsp = s.rsp ∧ (t.cmd = [] → step t = .next t)

/-- R19, R181: the codes PHASE and ERR show. R22, R23: after reset PHASE is IDLE, ERR is 0 and the outputs are empty, and
the block does nothing until the host starts a call: the step changes nothing (the form of waiting in log 3, DEDUCED). -/
def Obligations.StatusCodesAndResetState : Prop :=
  (Phase.idle.code = 0 ∧ Phase.encRun.code = 1 ∧ Phase.decRun.code = 2 ∧ Phase.doneOk.code = 3 ∧
    Phase.doneErr.code = 4) ∧
  (errCode none = 0 ∧ errCode (some .badMagic) = 1 ∧ errCode (some .invalidDimensions) = 2 ∧
    errCode (some .invalidChannelCount) = 3 ∧ errCode (some .truncatedInput) = 4 ∧ errCode (some .malformedRun) = 5 ∧
    errCode (some .pixelCountMismatch) = 6 ∧ errCode (some .bufferSizeMismatch) = 7) ∧
  State.reset.phase = .idle ∧ State.reset.err = none ∧ State.reset.out = [] ∧ State.reset.pixOut = [] ∧
  step State.reset = .next State.reset

-- Rules about every step -----------------------------------------------------------------------------------------

/-- What the spec infers of its step functions (R120, R145: total functions) and says of errors (R180, R192): the machine
never stops; every step of every state is a next state (log 23). -/
def Obligations.EveryStepHasANextState : Prop :=
  ∀ s : State, ∃ t, step s = .next t

/-- R19: ERR is 0 exactly when PHASE is not DONE_ERR; and a call without a result shows no output, the model's reading of
R170 in log 10: kept by every step. -/
def Obligations.StepKeepsStatusInvariant : Prop :=
  ∀ s t : State, StatusInvariant s → step s = .next t → StatusInvariant t

/-- The spec's inferences "Slot invariant", "Decoder invariant" and "Encoder invariant" (R98, R99, R100): a slot holds
(0,0,0,0) or a Pixel of that slot, and `cache[hash(prev)] == prev` with its one exception: kept by every step. -/
def Obligations.StepKeepsCacheInvariant : Prop :=
  ∀ s t : State, CacheInvariant s → step s = .next t → CacheInvariant t

/-- R15, R16, R117: the decoder's counters: kept by every step. -/
def Obligations.StepKeepsDecoderCounters : Prop :=
  ∀ s t : State, DecoderCounters s → step s = .next t → DecoderCounters t

/-- R14, R15 and the spec's inference "Size of the output" (R147): the encoder's counters, the run bound and the size
bound: kept by every step. -/
def Obligations.StepKeepsEncoderCounters : Prop :=
  ∀ s t : State, EncoderCounters s → step s = .next t → EncoderCounters t

/-- The canonical form of every byte memory (log 2): kept by every step. -/
def Obligations.StepKeepsMemoriesCanonical : Prop :=
  ∀ s t : State, MemoriesCanonical s → step s = .next t → MemoriesCanonical t

/-- The invariants hold at reset. -/
def Obligations.InvariantsHoldAtReset : Prop :=
  StatusInvariant State.reset ∧ CacheInvariant State.reset ∧ DecoderCounters State.reset ∧
    EncoderCounters State.reset ∧ MemoriesCanonical State.reset

/-- R186, R187: no step raises `MalformedRun` or `PixelCountMismatch`. -/
def Obligations.UnreachableErrors : Prop :=
  ∀ (s t : State) (e : ErrorKind), e = .malformedRun ∨ e = .pixelCountMismatch → step s = .next t →
    t.err = some e → s.err = some e

/-- The spec's inference "Which operation can end in which error" (R189). -/
def Obligations.ErrorsByOperation : Prop :=
  ∀ (s t : State) (e : ErrorKind), s.rst = false → s.err = none → step s = .next t → t.err = some e →
    s.phase = .encRun ∧ (e = .invalidDimensions ∨ e = .invalidChannelCount ∨ e = .bufferSizeMismatch) ∨
    s.phase = .decRun ∧ (e = .truncatedInput ∨ e = .badMagic ∨ e = .invalidChannelCount)

/-- R12, R211: what a call starts from does not depend on anything an earlier call or reset left: two instances, whatever
they hold, that accept the same command hold the same values in all that the call's pipelines and header read. -/
def Obligations.CallsShareNothing : Prop :=
  ∀ (s s' t t' : State) (c : Command) (later later' : List Command), s.rst = false → s'.rst = false →
    s.phase.running = false → s'.phase.running = false → s.cmd = c :: later → s'.cmd = c :: later' →
    c.op = 1 ∨ c.op = 2 → step s = .next t → step s' = .next t' →
    { t with npix := 0, pc := 0, outLen := 0, endPc := 0, cmd := [], rsp := [], draws := 0 } =
      { t' with npix := 0, pc := 0, outLen := 0, endPc := 0, cmd := [], rsp := [], draws := 0 }

/-- R146 for the encoder, R118 (CHANNELS, COLORSPACE) and R35 (WIDTH, HEIGHT) for the decoder: neither pipeline reads any of
the four registers: with other values in them a pipeline's step gives the same state but for those registers, as long as
the call goes on. -/
def Obligations.PipelinesIgnoreHeaderRegisters : Prop :=
  ∀ (s t : State) (w h : BitVec 32) (c cs : Byte), s.rst = false → s.phase.running = true → s.hdrDone = true →
    step s = .next t → t.phase.running = true →
    step { s with width := w, height := h, channels := c, colorspace := cs } =
      .next { t with width := w, height := h, channels := c, colorspace := cs }

-- The codec as a whole -------------------------------------------------------------------------------------------

/-- The spec's inference "Encoder and decoder caches compared" (R101): whatever the encoder emits in a step, a decoder that
has followed it so far executes, and follows it again: the same `prev`, the same caches but for slot 53, and the encoder's
input so far less its pending run as output. At the encoder's last step the item is END, which the decoder never reads
(R166): there the statement rests on END having no effect in DEC_RUN (log 13, DESIGN CHOICE), and on the encoder's `cache`,
`prev`, `run`, `npix` and `px_cnt` staying after DONE_OK (log 27, DEDUCED; R170 does not say it). -/
def Obligations.DecoderFollowsEncoder : Prop :=
  ∀ e d e' : State, e.rst = false → e.phase = .encRun → e.hdrDone = true → CacheInvariant e → EncoderCounters e →
    DecoderFollows e d → step e = .next e' →
    ∃ (items : List Instr) (d' : State), (∀ i ∈ items, i.wf = true) ∧
      e'.out = e.out ++ (items.map encode).flatten ∧ execAll items d = .next d' ∧ DecoderFollows e' d'

/-- The law R173 marks as the spec's own inference: an encode that passes its checks completes, and decoding its output, on
any idle instance, completes with the same Pixels and header fields, eight bytes before the end. The size premise, which
R173 does not have, is that 64 bits hold the output's length (log 12, DESIGN CHOICE). -/
def Obligations.DecodeOfEncodeIsIdentity : Prop :=
  ∀ (s : State) (c : Command), s.rst = false → s.phase.running = false → s.cmd = [c] → c.op = 1 →
    c.width ≠ 0 → c.height ≠ 0 → c.channels = 3 ∨ c.channels = 4 →
    c.pixels.length = c.width.toNat * c.height.toNat → c.len.toNat = c.pixels.length →
    14 + 5 * c.pixels.length + 8 < 2 ^ 64 →
    ∃ (k : Nat) (t : State), core.run k s = .next t ∧ t.phase = .doneOk ∧ t.err = none ∧
      t.outLen.toNat = t.out.length ∧
      ∀ (s' : State) (c' : Command), s'.rst = false → s'.phase.running = false → s'.cmd = [c'] → c'.op = 2 →
        c'.len = t.outLen → Memory.readBytes c'.bytes 0 t.out.length = some t.out →
        ∃ (k' : Nat) (t' : State), core.run k' s' = .next t' ∧ t'.phase = .doneOk ∧ t'.err = none ∧
          t'.pixOut = c.pixels ∧ t'.width = c.width ∧ t'.height = c.height ∧ t'.channels = c.channels ∧
          t'.colorspace = c.colorspace ∧ t'.endPc.toNat + 8 = t.out.length
end

