-- ==== Sys2Proof/Laws/Decode.lean ====
section
/-!
SUPPORT. The fields of the chunk bytes, both ways, and what the decoders can answer.
-/

namespace Sys2Proof

-- From operands to bytes and back, kind by kind -------------------------------------------------------------------

theorem index_byte : ∀ s : Slot, chunkKind (BitVec.ofNat 8 s.val) = .index ∧ slotField (BitVec.ofNat 8 s.val) = s := by
  decide

theorem diff_byte : ∀ x y z : Fin 4,
    let b : Byte := BitVec.ofNat 8 (0x40 + x.val * 16 + y.val * 4 + z.val)
    chunkKind b = .diff ∧ byteField b 4 2 = x.val ∧ byteField b 2 2 = y.val ∧ byteField b 0 2 = z.val := by
  decide

theorem luma_byte : ∀ x : Fin 64,
    let b : Byte := BitVec.ofNat 8 (0x80 + x.val)
    chunkKind b = .luma ∧ byteField b 0 6 = x.val := by
  decide

theorem nibbles_byte : ∀ x y : Fin 16,
    let b : Byte := BitVec.ofNat 8 (x.val * 16 + y.val)
    byteField b 4 4 = x.val ∧ byteField b 0 4 = y.val := by
  decide

theorem run_byte : ∀ x : Fin 62,
    let b : Byte := BitVec.ofNat 8 (0xC0 + x.val)
    chunkKind b = .run ∧ byteField b 0 6 = x.val := by
  decide

-- From bytes to operands and back ---------------------------------------------------------------------------------

theorem byte_of_index : ∀ b : Byte, chunkKind b = .index → BitVec.ofNat 8 (slotField b).val = b := by decide

theorem byte_of_diff : ∀ b : Byte, chunkKind b = .diff →
    BitVec.ofNat 8 (0x40 + byteField b 4 2 * 16 + byteField b 2 2 * 4 + byteField b 0 2) = b := by decide

theorem byte_of_luma : ∀ b : Byte, chunkKind b = .luma → BitVec.ofNat 8 (0x80 + byteField b 0 6) = b := by decide

theorem byte_of_nibbles : ∀ b : Byte, BitVec.ofNat 8 (byteField b 4 4 * 16 + byteField b 0 4) = b := by decide

theorem byte_of_run : ∀ b : Byte, chunkKind b = .run → BitVec.ofNat 8 (0xC0 + byteField b 0 6) = b ∧ byteField b 0 6 < 62 := by
  decide

theorem byte_of_rgb : ∀ b : Byte, chunkKind b = .rgb → b = 0xFE := by decide

theorem byte_of_rgba : ∀ b : Byte, chunkKind b = .rgba → b = 0xFF := by decide

theorem byteField_lt (b : Byte) (lo width : Nat) : byteField b lo width < 2 ^ width :=
  Nat.mod_lt _ (Nat.two_pow_pos width)

/-- A byte made from a non-negative integer. -/
theorem ofInt_ofNat (n : Nat) : BitVec.ofInt 8 (n : Int) = BitVec.ofNat 8 n := BitVec.ofInt_natCast 8 n

-- Big-endian values (R33) --------------------------------------------------------------------------------------------

theorem ofBigEndian32_toNat (b0 b1 b2 b3 : Byte) :
    (ofBigEndian32 b0 b1 b2 b3).toNat = b0.toNat * 2 ^ 24 + b1.toNat * 2 ^ 16 + b2.toNat * 2 ^ 8 + b3.toNat := by
  have := b0.isLt
  have := b1.isLt
  have := b2.isLt
  have := b3.isLt
  rw [ofBigEndian32, BitVec.toNat_ofNat, Nat.mod_eq_of_lt (by omega)]

/-- The four bytes of a 32-bit value, as numbers. -/
theorem bigEndian32_toNat (w : BitVec 32) :
    w.toNat = (w.extractLsb' 24 8).toNat * 2 ^ 24 + (w.extractLsb' 16 8).toNat * 2 ^ 16 +
      (w.extractLsb' 8 8).toNat * 2 ^ 8 + (w.extractLsb' 0 8).toNat := by
  have := w.isLt
  simp only [BitVec.extractLsb'_toNat, Nat.shiftRight_eq_div_pow]; omega

theorem ofBigEndian32_bigEndian32 (w : BitVec 32) :
    ofBigEndian32 (w.extractLsb' 24 8) (w.extractLsb' 16 8) (w.extractLsb' 8 8) (w.extractLsb' 0 8) = w := by
  apply BitVec.eq_of_toNat_eq
  rw [ofBigEndian32_toNat, ← bigEndian32_toNat]

theorem bigEndian32_of_toNat (w : BitVec 32) (b0 b1 b2 b3 : Byte)
    (h : w.toNat = b0.toNat * 2 ^ 24 + b1.toNat * 2 ^ 16 + b2.toNat * 2 ^ 8 + b3.toNat) :
    bigEndian32 w = [b0, b1, b2, b3] := by
  have h0 := b0.isLt
  have h1 := b1.isLt
  have h2 := b2.isLt
  have h3 := b3.isLt
  simp only [bigEndian32, List.cons.injEq, and_true, ← BitVec.toNat_inj, BitVec.extractLsb'_toNat,
    Nat.shiftRight_eq_div_pow]
  refine ⟨?_, ?_, ?_, ?_⟩ <;> omega

theorem bigEndian32_ofBigEndian32 (b0 b1 b2 b3 : Byte) : bigEndian32 (ofBigEndian32 b0 b1 b2 b3) = [b0, b1, b2, b3] :=
  bigEndian32_of_toNat _ _ _ _ _ (ofBigEndian32_toNat b0 b1 b2 b3)

-- The length of what is decoded -----------------------------------------------------------------------------------

/-- What the chunk decoder answers for a chunk is as long as its first byte says, and the rest is untouched. -/
theorem decodeChunk_ok {bs rest : List Byte} {i : Instr} (h : decodeChunk bs = .ok (i, rest)) :
    ∃ b tail, bs = b :: tail ∧ i.isChunk = true ∧ i.length = (chunkKind b).length ∧
      rest = tail.drop ((chunkKind b).length - 1) ∧ (chunkKind b).length ≤ bs.length := by
  cases bs with
  | nil => simp [decodeChunk] at h
  | cons b tail =>
    refine ⟨b, tail, rfl, ?_⟩
    simp only [decodeChunk] at h
    cases hk : chunkKind b <;> simp only [hk] at h
    all_goals first
      | (split at h <;> simp only [Except.ok.injEq, Prod.mk.injEq, reduceCtorEq] at h
         obtain ⟨rfl, rfl⟩ := h
         simp [Instr.isChunk, Instr.length, ChunkKind.length])
      | (simp only [Except.ok.injEq, Prod.mk.injEq] at h
         obtain ⟨rfl, rfl⟩ := h
         simp [Instr.isChunk, Instr.length, ChunkKind.length])

theorem ChunkKind.length_pos (k : ChunkKind) : 1 ≤ k.length := by cases k <;> decide

theorem ChunkKind.length_cases (k : ChunkKind) : k.length = 1 ∨ k.length = 2 ∨ k.length = 4 ∨ k.length = 5 := by
  cases k <;> decide

/-- Enough bytes for the chunk that the first one begins are decoded. -/
theorem decodeChunk_isOk (b : Byte) (tail : List Byte) (h : (chunkKind b).length ≤ tail.length + 1) :
    ∃ i, decodeChunk (b :: tail) = .ok (i, tail.drop ((chunkKind b).length - 1)) := by
  simp only [decodeChunk]
  cases hk : chunkKind b <;> simp only [hk, ChunkKind.length] at h ⊢ <;>
    first
      | exact ⟨_, rfl⟩
      | (match tail, h with
         | [x], _ => exact ⟨_, rfl⟩
         | x :: y :: rest, _ => exact ⟨_, rfl⟩)
      | (match tail, h with
         | x :: y :: z :: rest, _ => exact ⟨_, rfl⟩)
      | (match tail, h with
         | x :: y :: z :: w :: rest, _ => exact ⟨_, rfl⟩)

/-- What the header decoder answers is a HEADER of the first 14 bytes. -/
theorem decodeHeaderItem_ok {bs rest : List Byte} {i : Instr} (h : decodeHeaderItem bs = .ok (i, rest)) :
    ∃ w hh c cs, i = .header w hh c cs ∧ bs = encode i ++ rest := by
  unfold decodeHeaderItem at h
  split at h
  · rename_i m0 m1 m2 m3 w0 w1 w2 w3 h0 h1 h2 h3 c cs rest'
    split at h
    · rename_i hm
      simp only [Except.ok.injEq, Prod.mk.injEq] at h
      obtain ⟨rfl, rfl⟩ := h
      refine ⟨_, _, _, _, rfl, ?_⟩
      simp only [encode, ← hm, bigEndian32_ofBigEndian32, List.cons_append, List.nil_append]
    · simp at h
  · simp at h

end Sys2Proof
end

