-- ==== Sys2Proof/Laws/Flags.lean ====
section
/-!
SUPPORT. The conditions as propositions, and the ranges of the arithmetic of a Pixel.
-/

namespace Sys2Proof.Machine

theorem inRange_iff (lo hi x : Int) : inRange lo hi x = true ↔ lo ≤ x ∧ x ≤ hi := by
  simp only [inRange, Bool.and_eq_true, decide_eq_true_eq]

theorem sameAlpha_iff (p prev : Pixel) : sameAlpha p prev = true ↔ p.a = prev.a := by
  simp only [sameAlpha, decide_eq_true_eq]

theorem channelsLegal_iff (c : Byte) : channelsLegal c = true ↔ c = 3 ∨ c = 4 := by
  simp only [channelsLegal, Bool.or_eq_true, decide_eq_true_eq]

theorem channelsLegal_eq_false_iff (c : Byte) : channelsLegal c = false ↔ c ≠ 3 ∧ c ≠ 4 := by
  rw [← Bool.not_eq_true, channelsLegal_iff, not_or]

/-- `diff_fits` (R94). -/
theorem diffFits_iff (p prev : Pixel) :
    diffFits p prev = true ↔ p.a = prev.a ∧ (-2 ≤ (pixelDeltas p prev).dr ∧ (pixelDeltas p prev).dr ≤ 1) ∧
      (-2 ≤ (pixelDeltas p prev).dg ∧ (pixelDeltas p prev).dg ≤ 1) ∧
      (-2 ≤ (pixelDeltas p prev).db ∧ (pixelDeltas p prev).db ≤ 1) := by
  simp only [diffFits, Bool.and_eq_true, inRange_iff, sameAlpha_iff, and_assoc]

/-- `luma_fits` (R95). -/
theorem lumaFits_iff (p prev : Pixel) :
    lumaFits p prev = true ↔ p.a = prev.a ∧ (-32 ≤ (pixelDeltas p prev).dg ∧ (pixelDeltas p prev).dg ≤ 31) ∧
      (-8 ≤ (pixelDeltas p prev).dr - (pixelDeltas p prev).dg ∧
        (pixelDeltas p prev).dr - (pixelDeltas p prev).dg ≤ 7) ∧
      (-8 ≤ (pixelDeltas p prev).db - (pixelDeltas p prev).dg ∧
        (pixelDeltas p prev).db - (pixelDeltas p prev).dg ≤ 7) := by
  simp only [lumaFits, Bool.and_eq_true, inRange_iff, sameAlpha_iff, and_assoc]

/-- `s8` is a signed 8-bit value (R7). -/
theorem s8_range (x : Int) : -128 ≤ s8 x ∧ s8 x ≤ 127 := by
  unfold s8; split <;> omega

theorem channelDiff_range (x y : Byte) : -128 ≤ channelDiff x y ∧ channelDiff x y ≤ 127 := s8_range _

theorem pixelDeltas_range (p prev : Pixel) :
    (-128 ≤ (pixelDeltas p prev).dr ∧ (pixelDeltas p prev).dr ≤ 127) ∧
      (-128 ≤ (pixelDeltas p prev).dg ∧ (pixelDeltas p prev).dg ≤ 127) ∧
      (-128 ≤ (pixelDeltas p prev).db ∧ (pixelDeltas p prev).db ≤ 127) :=
  ⟨channelDiff_range _ _, channelDiff_range _ _, channelDiff_range _ _⟩

/-- `u8` as a number (R7). -/
theorem u8_toNat (x : Int) : ((u8 x).toNat : Int) = x % 256 := by
  simp only [u8, BitVec.toNat_ofInt]; omega

/-- A channel with a delta, as a number (R96). -/
theorem addDelta_toNat (c : Byte) (d : Int) : ((addDelta c d).toNat : Int) = (c.toNat + d) % 256 := u8_toNat _

/-- The packed word of a Pixel loses nothing (R13). -/
theorem unpackPixel_packPixel (p : Pixel) : unpackPixel (packPixel p) = p := by
  obtain ⟨r, g, b, a⟩ := p
  simp only [unpackPixel, packPixel, Pixel.mk.injEq]
  refine ⟨?_, ?_, ?_, ?_⟩ <;> ext i hi <;> simp only [BitVec.getElem_extractLsb', BitVec.getLsbD_append] <;> grind

end Sys2Proof.Machine
end

