-- ==== Sys2Proof/Laws/Memory.lean ====
section
/-!
SUPPORT. The laws of the input byte memory: every operation keeps the canonical form, and a read after a write.
-/

namespace Sys2Proof.Machine

/-- The canonical form, as a property of the list of offsets. -/
theorem Memory.wf_iff (m : Memory) : Memory.wf m = true ↔ (m.map Prod.fst).IsChain (· < ·) := by
  induction m with
  | nil => simp [Memory.wf]
  | cons c m ih =>
    cases m with
    | nil => simp [Memory.wf]
    | cons d m => simp_all [Memory.wf]

theorem Memory.read_write_same (m : Memory) (a : Nat) (b : Byte) : Memory.read (Memory.write m a b) a = some b := by
  induction m with
  | nil => simp [Memory.write, Memory.read]
  | cons c m ih =>
    obtain ⟨x, v⟩ := c
    simp only [Memory.write]
    split
    · simp [Memory.read]
    · split
      · simp [Memory.read]
      · rename_i h; simp [Memory.read, Ne.symm h, ih]

theorem Memory.read_write_other (m : Memory) (a a' : Nat) (b : Byte) (h : a' ≠ a) :
    Memory.read (Memory.write m a b) a' = Memory.read m a' := by
  induction m with
  | nil => simp [Memory.write, Memory.read, h.symm]
  | cons c m ih =>
    obtain ⟨x, v⟩ := c
    simp only [Memory.write]
    split
    · simp [Memory.read, h.symm]
    · split
      · subst_vars; simp [Memory.read, h.symm]
      · simp [Memory.read, ih]

/-- Writing leaves the first offset what it was, or makes it the written one. -/
theorem Memory.head_write (m : Memory) (a : Nat) (b : Byte) :
    ∃ v rest, Memory.write m a b = (a, v) :: rest ∨
      ∃ x, m.head?.map Prod.fst = some x ∧ x < a ∧ Memory.write m a b = (x, v) :: rest := by
  cases m with
  | nil => exact ⟨b, [], .inl rfl⟩
  | cons c m =>
    obtain ⟨x, v⟩ := c
    simp only [Memory.write]
    split
    · exact ⟨b, _, .inl rfl⟩
    · split
      · exact ⟨b, _, .inl rfl⟩
      · exact ⟨v, _, .inr ⟨x, rfl, by omega, rfl⟩⟩

theorem Memory.wf_write (m : Memory) (a : Nat) (b : Byte) (h : m.wf = true) : (Memory.write m a b).wf = true := by
  induction m with
  | nil => rfl
  | cons c m ih =>
    obtain ⟨x, v⟩ := c
    simp only [Memory.write]
    split
    · simp [Memory.wf, *]
    · split
      · subst_vars; cases m <;> simp_all [Memory.wf]
      · have ht : Memory.wf m = true := by cases m <;> simp_all [Memory.wf]
        obtain ⟨v', rest, hw | ⟨y, hy, _, hw⟩⟩ := Memory.head_write m a b
        · have := ih ht
          rw [hw] at this ⊢
          simp [Memory.wf, this]; omega
        · have := ih ht
          rw [hw] at this ⊢
          cases m with
          | nil => simp at hy
          | cons d m =>
            simp only [List.head?_cons, Option.map_some, Option.some.injEq] at hy
            subst hy
            simp_all [Memory.wf]

theorem Memory.wf_writeBytes (bs : List Byte) (m : Memory) (a : Nat) (h : m.wf = true) :
    (Memory.writeBytes m a bs).wf = true := by
  induction bs generalizing m a with
  | nil => exact h
  | cons b bs ih => exact ih _ _ (Memory.wf_write m a b h)

theorem Memory.wf_ofBytes (bs : List Byte) : (Memory.ofBytes bs).wf = true := Memory.wf_writeBytes bs [] 0 rfl

theorem Memory.read_writeBytes_below (bs : List Byte) (m : Memory) (a a' : Nat) (h : a' < a) :
    Memory.read (Memory.writeBytes m a bs) a' = Memory.read m a' := by
  induction bs generalizing m a with
  | nil => rfl
  | cons b bs ih => rw [Memory.writeBytes, ih _ _ (by omega), Memory.read_write_other _ _ _ _ (by omega)]

theorem Memory.read_writeBytes_at (bs : List Byte) (m : Memory) (a k : Nat) (h : k < bs.length) :
    Memory.read (Memory.writeBytes m a bs) (a + k) = some bs[k] := by
  induction bs generalizing m a k with
  | nil => simp at h
  | cons b bs ih =>
    cases k with
    | zero =>
      rw [Memory.writeBytes, Memory.read_writeBytes_below _ _ _ _ (by omega)]
      exact Memory.read_write_same m a b
    | succ k =>
      have := ih (Memory.write m a b) (a + 1) k (by simpa using h)
      rw [show a + 1 + k = a + (k + 1) by omega] at this
      simpa [Memory.writeBytes] using this

/-- Reading consecutive offsets gives `bs` exactly when each offset holds its byte. -/
theorem Memory.readBytes_eq_some_iff (m : Memory) (a n : Nat) (bs : List Byte) :
    Memory.readBytes m a n = some bs ↔ bs.length = n ∧ ∀ k (h : k < bs.length), Memory.read m (a + k) = some bs[k] := by
  induction n generalizing a bs with
  | zero =>
    simp only [Memory.readBytes, Option.some.injEq, List.length_eq_zero_iff]
    exact ⟨by rintro rfl; simp, fun h => h.1.symm⟩
  | succ n ih =>
    constructor
    · intro h
      simp only [Memory.readBytes] at h
      split at h
      · rename_i b rest hb hr
        obtain ⟨hl, hk⟩ := (ih _ _).1 hr
        simp only [Option.some.injEq] at h
        subst h
        refine ⟨by simp [hl], fun k hk' => ?_⟩
        cases k with
        | zero => simpa using hb
        | succ k =>
          have := hk k (by simpa using hk')
          rw [show a + 1 + k = a + (k + 1) by omega] at this
          simpa using this
      · simp at h
    · rintro ⟨hl, hk⟩
      cases bs with
      | nil => simp at hl
      | cons b rest =>
        have h0 := hk 0 (by simp)
        have hr : Memory.readBytes m (a + 1) n = some rest := by
          refine (ih _ _).2 ⟨by simpa using hl, fun k hk' => ?_⟩
          have := hk (k + 1) (by simpa using hk')
          rw [show a + (k + 1) = a + 1 + k by omega] at this
          simpa using this
        simp only [Nat.add_zero, List.getElem_cons_zero] at h0
        simp [Memory.readBytes, h0, hr]

/-- What was delivered is what is read, from any offset on. -/
theorem Memory.readBytes_ofBytes (bs : List Byte) (a n : Nat) (h : a + n ≤ bs.length) :
    Memory.readBytes (Memory.ofBytes bs) a n = some ((bs.drop a).take n) := by
  rw [Memory.readBytes_eq_some_iff]
  refine ⟨by simp; omega, fun k hk => ?_⟩
  have hk' : a + k < bs.length := by simp at hk; omega
  have := Memory.read_writeBytes_at bs [] 0 (a + k) hk'
  simpa [Memory.ofBytes] using this

theorem Memory.readBytes_writeBytes (bs : List Byte) (m : Memory) (a : Nat) :
    Memory.readBytes (Memory.writeBytes m a bs) a bs.length = some bs := by
  rw [Memory.readBytes_eq_some_iff]
  exact ⟨rfl, fun k hk => Memory.read_writeBytes_at bs m a k hk⟩

/-- A part of what is read is read at its own offset. -/
theorem Memory.readBytes_part (m : Memory) (a : Nat) (xs ys zs : List Byte)
    (h : Memory.readBytes m a (xs.length + (ys.length + zs.length)) = some (xs ++ (ys ++ zs))) :
    Memory.readBytes m (a + xs.length) ys.length = some ys := by
  rw [Memory.readBytes_eq_some_iff] at h ⊢
  refine ⟨rfl, fun k hk => ?_⟩
  have := h.2 (xs.length + k) (by simp; omega)
  rw [← Nat.add_assoc] at this
  rw [this]
  simp [List.getElem_append_left, hk]

end Sys2Proof.Machine
end

