-- ==== Sys2Proof/Laws/State.lean ====
section
/-!
SUPPORT. What each update of the state does to each field, one lemma per field per update, so that no later proof unfolds
a record update.
-/

namespace Sys2Proof.Machine

-- `writeCache` (R92: only the cache changes)
@[simp] theorem writeCache_op (p : Pixel) (s : State) : (writeCache p s).op = s.op := rfl
@[simp] theorem writeCache_width (p : Pixel) (s : State) : (writeCache p s).width = s.width := rfl
@[simp] theorem writeCache_height (p : Pixel) (s : State) : (writeCache p s).height = s.height := rfl
@[simp] theorem writeCache_channels (p : Pixel) (s : State) : (writeCache p s).channels = s.channels := rfl
@[simp] theorem writeCache_colorspace (p : Pixel) (s : State) : (writeCache p s).colorspace = s.colorspace := rfl
@[simp] theorem writeCache_len (p : Pixel) (s : State) : (writeCache p s).len = s.len := rfl
@[simp] theorem writeCache_phase (p : Pixel) (s : State) : (writeCache p s).phase = s.phase := rfl
@[simp] theorem writeCache_err (p : Pixel) (s : State) : (writeCache p s).err = s.err := rfl
@[simp] theorem writeCache_outLen (p : Pixel) (s : State) : (writeCache p s).outLen = s.outLen := rfl
@[simp] theorem writeCache_endPc (p : Pixel) (s : State) : (writeCache p s).endPc = s.endPc := rfl
@[simp] theorem writeCache_cache (p : Pixel) (s : State) : (writeCache p s).cache = s.cache.set (pixelHash p).val p (pixelHash p).isLt := rfl
@[simp] theorem writeCache_prev (p : Pixel) (s : State) : (writeCache p s).prev = s.prev := rfl
@[simp] theorem writeCache_run (p : Pixel) (s : State) : (writeCache p s).run = s.run := rfl
@[simp] theorem writeCache_npix (p : Pixel) (s : State) : (writeCache p s).npix = s.npix := rfl
@[simp] theorem writeCache_pxCnt (p : Pixel) (s : State) : (writeCache p s).pxCnt = s.pxCnt := rfl
@[simp] theorem writeCache_pc (p : Pixel) (s : State) : (writeCache p s).pc = s.pc := rfl
@[simp] theorem writeCache_inMem (p : Pixel) (s : State) : (writeCache p s).inMem = s.inMem := rfl
@[simp] theorem writeCache_pixIn (p : Pixel) (s : State) : (writeCache p s).pixIn = s.pixIn := rfl
@[simp] theorem writeCache_out (p : Pixel) (s : State) : (writeCache p s).out = s.out := rfl
@[simp] theorem writeCache_pixOut (p : Pixel) (s : State) : (writeCache p s).pixOut = s.pixOut := rfl
@[simp] theorem writeCache_cmd (p : Pixel) (s : State) : (writeCache p s).cmd = s.cmd := rfl
@[simp] theorem writeCache_rsp (p : Pixel) (s : State) : (writeCache p s).rsp = s.rsp := rfl
@[simp] theorem writeCache_rst (p : Pixel) (s : State) : (writeCache p s).rst = s.rst := rfl
@[simp] theorem writeCache_hdrDone (p : Pixel) (s : State) : (writeCache p s).hdrDone = s.hdrDone := rfl
@[simp] theorem writeCache_draws (p : Pixel) (s : State) : (writeCache p s).draws = s.draws := rfl

-- `emit` (R8, R31: only OUT grows)
@[simp] theorem emit_op (bs : List Byte) (s : State) : (emit bs s).op = s.op := rfl
@[simp] theorem emit_width (bs : List Byte) (s : State) : (emit bs s).width = s.width := rfl
@[simp] theorem emit_height (bs : List Byte) (s : State) : (emit bs s).height = s.height := rfl
@[simp] theorem emit_channels (bs : List Byte) (s : State) : (emit bs s).channels = s.channels := rfl
@[simp] theorem emit_colorspace (bs : List Byte) (s : State) : (emit bs s).colorspace = s.colorspace := rfl
@[simp] theorem emit_len (bs : List Byte) (s : State) : (emit bs s).len = s.len := rfl
@[simp] theorem emit_phase (bs : List Byte) (s : State) : (emit bs s).phase = s.phase := rfl
@[simp] theorem emit_err (bs : List Byte) (s : State) : (emit bs s).err = s.err := rfl
@[simp] theorem emit_outLen (bs : List Byte) (s : State) : (emit bs s).outLen = s.outLen := rfl
@[simp] theorem emit_endPc (bs : List Byte) (s : State) : (emit bs s).endPc = s.endPc := rfl
@[simp] theorem emit_cache (bs : List Byte) (s : State) : (emit bs s).cache = s.cache := rfl
@[simp] theorem emit_prev (bs : List Byte) (s : State) : (emit bs s).prev = s.prev := rfl
@[simp] theorem emit_run (bs : List Byte) (s : State) : (emit bs s).run = s.run := rfl
@[simp] theorem emit_npix (bs : List Byte) (s : State) : (emit bs s).npix = s.npix := rfl
@[simp] theorem emit_pxCnt (bs : List Byte) (s : State) : (emit bs s).pxCnt = s.pxCnt := rfl
@[simp] theorem emit_pc (bs : List Byte) (s : State) : (emit bs s).pc = s.pc := rfl
@[simp] theorem emit_inMem (bs : List Byte) (s : State) : (emit bs s).inMem = s.inMem := rfl
@[simp] theorem emit_pixIn (bs : List Byte) (s : State) : (emit bs s).pixIn = s.pixIn := rfl
@[simp] theorem emit_out (bs : List Byte) (s : State) : (emit bs s).out = s.out ++ bs := rfl
@[simp] theorem emit_pixOut (bs : List Byte) (s : State) : (emit bs s).pixOut = s.pixOut := rfl
@[simp] theorem emit_cmd (bs : List Byte) (s : State) : (emit bs s).cmd = s.cmd := rfl
@[simp] theorem emit_rsp (bs : List Byte) (s : State) : (emit bs s).rsp = s.rsp := rfl
@[simp] theorem emit_rst (bs : List Byte) (s : State) : (emit bs s).rst = s.rst := rfl
@[simp] theorem emit_hdrDone (bs : List Byte) (s : State) : (emit bs s).hdrDone = s.hdrDone := rfl
@[simp] theorem emit_draws (bs : List Byte) (s : State) : (emit bs s).draws = s.draws := rfl

-- `pixOutTimes` (R8: only the output Pixels grow)
@[simp] theorem pixOutTimes_op (p : Pixel) (n : Nat) (s : State) : (pixOutTimes p n s).op = s.op := rfl
@[simp] theorem pixOutTimes_width (p : Pixel) (n : Nat) (s : State) : (pixOutTimes p n s).width = s.width := rfl
@[simp] theorem pixOutTimes_height (p : Pixel) (n : Nat) (s : State) : (pixOutTimes p n s).height = s.height := rfl
@[simp] theorem pixOutTimes_channels (p : Pixel) (n : Nat) (s : State) : (pixOutTimes p n s).channels = s.channels := rfl
@[simp] theorem pixOutTimes_colorspace (p : Pixel) (n : Nat) (s : State) : (pixOutTimes p n s).colorspace = s.colorspace := rfl
@[simp] theorem pixOutTimes_len (p : Pixel) (n : Nat) (s : State) : (pixOutTimes p n s).len = s.len := rfl
@[simp] theorem pixOutTimes_phase (p : Pixel) (n : Nat) (s : State) : (pixOutTimes p n s).phase = s.phase := rfl
@[simp] theorem pixOutTimes_err (p : Pixel) (n : Nat) (s : State) : (pixOutTimes p n s).err = s.err := rfl
@[simp] theorem pixOutTimes_outLen (p : Pixel) (n : Nat) (s : State) : (pixOutTimes p n s).outLen = s.outLen := rfl
@[simp] theorem pixOutTimes_endPc (p : Pixel) (n : Nat) (s : State) : (pixOutTimes p n s).endPc = s.endPc := rfl
@[simp] theorem pixOutTimes_cache (p : Pixel) (n : Nat) (s : State) : (pixOutTimes p n s).cache = s.cache := rfl
@[simp] theorem pixOutTimes_prev (p : Pixel) (n : Nat) (s : State) : (pixOutTimes p n s).prev = s.prev := rfl
@[simp] theorem pixOutTimes_run (p : Pixel) (n : Nat) (s : State) : (pixOutTimes p n s).run = s.run := rfl
@[simp] theorem pixOutTimes_npix (p : Pixel) (n : Nat) (s : State) : (pixOutTimes p n s).npix = s.npix := rfl
@[simp] theorem pixOutTimes_pxCnt (p : Pixel) (n : Nat) (s : State) : (pixOutTimes p n s).pxCnt = s.pxCnt := rfl
@[simp] theorem pixOutTimes_pc (p : Pixel) (n : Nat) (s : State) : (pixOutTimes p n s).pc = s.pc := rfl
@[simp] theorem pixOutTimes_inMem (p : Pixel) (n : Nat) (s : State) : (pixOutTimes p n s).inMem = s.inMem := rfl
@[simp] theorem pixOutTimes_pixIn (p : Pixel) (n : Nat) (s : State) : (pixOutTimes p n s).pixIn = s.pixIn := rfl
@[simp] theorem pixOutTimes_out (p : Pixel) (n : Nat) (s : State) : (pixOutTimes p n s).out = s.out := rfl
@[simp] theorem pixOutTimes_pixOut (p : Pixel) (n : Nat) (s : State) : (pixOutTimes p n s).pixOut = s.pixOut ++ List.replicate n p := rfl
@[simp] theorem pixOutTimes_cmd (p : Pixel) (n : Nat) (s : State) : (pixOutTimes p n s).cmd = s.cmd := rfl
@[simp] theorem pixOutTimes_rsp (p : Pixel) (n : Nat) (s : State) : (pixOutTimes p n s).rsp = s.rsp := rfl
@[simp] theorem pixOutTimes_rst (p : Pixel) (n : Nat) (s : State) : (pixOutTimes p n s).rst = s.rst := rfl
@[simp] theorem pixOutTimes_hdrDone (p : Pixel) (n : Nat) (s : State) : (pixOutTimes p n s).hdrDone = s.hdrDone := rfl
@[simp] theorem pixOutTimes_draws (p : Pixel) (n : Nat) (s : State) : (pixOutTimes p n s).draws = s.draws := rfl

-- `respond` (R169: only the response channel grows)
@[simp] theorem respond_op (s : State) : (respond s).op = s.op := rfl
@[simp] theorem respond_width (s : State) : (respond s).width = s.width := rfl
@[simp] theorem respond_height (s : State) : (respond s).height = s.height := rfl
@[simp] theorem respond_channels (s : State) : (respond s).channels = s.channels := rfl
@[simp] theorem respond_colorspace (s : State) : (respond s).colorspace = s.colorspace := rfl
@[simp] theorem respond_len (s : State) : (respond s).len = s.len := rfl
@[simp] theorem respond_phase (s : State) : (respond s).phase = s.phase := rfl
@[simp] theorem respond_err (s : State) : (respond s).err = s.err := rfl
@[simp] theorem respond_outLen (s : State) : (respond s).outLen = s.outLen := rfl
@[simp] theorem respond_endPc (s : State) : (respond s).endPc = s.endPc := rfl
@[simp] theorem respond_cache (s : State) : (respond s).cache = s.cache := rfl
@[simp] theorem respond_prev (s : State) : (respond s).prev = s.prev := rfl
@[simp] theorem respond_run (s : State) : (respond s).run = s.run := rfl
@[simp] theorem respond_npix (s : State) : (respond s).npix = s.npix := rfl
@[simp] theorem respond_pxCnt (s : State) : (respond s).pxCnt = s.pxCnt := rfl
@[simp] theorem respond_pc (s : State) : (respond s).pc = s.pc := rfl
@[simp] theorem respond_inMem (s : State) : (respond s).inMem = s.inMem := rfl
@[simp] theorem respond_pixIn (s : State) : (respond s).pixIn = s.pixIn := rfl
@[simp] theorem respond_out (s : State) : (respond s).out = s.out := rfl
@[simp] theorem respond_pixOut (s : State) : (respond s).pixOut = s.pixOut := rfl
@[simp] theorem respond_cmd (s : State) : (respond s).cmd = s.cmd := rfl
@[simp] theorem respond_rsp (s : State) : (respond s).rsp = s.rsp ++ [responseOf s] := rfl
@[simp] theorem respond_rst (s : State) : (respond s).rst = s.rst := rfl
@[simp] theorem respond_hdrDone (s : State) : (respond s).hdrDone = s.hdrDone := rfl
@[simp] theorem respond_draws (s : State) : (respond s).draws = s.draws := rfl

-- `nextDraw` (Only the draw counter moves)
@[simp] theorem nextDraw_op (s : State) : (nextDraw s).op = s.op := rfl
@[simp] theorem nextDraw_width (s : State) : (nextDraw s).width = s.width := rfl
@[simp] theorem nextDraw_height (s : State) : (nextDraw s).height = s.height := rfl
@[simp] theorem nextDraw_channels (s : State) : (nextDraw s).channels = s.channels := rfl
@[simp] theorem nextDraw_colorspace (s : State) : (nextDraw s).colorspace = s.colorspace := rfl
@[simp] theorem nextDraw_len (s : State) : (nextDraw s).len = s.len := rfl
@[simp] theorem nextDraw_phase (s : State) : (nextDraw s).phase = s.phase := rfl
@[simp] theorem nextDraw_err (s : State) : (nextDraw s).err = s.err := rfl
@[simp] theorem nextDraw_outLen (s : State) : (nextDraw s).outLen = s.outLen := rfl
@[simp] theorem nextDraw_endPc (s : State) : (nextDraw s).endPc = s.endPc := rfl
@[simp] theorem nextDraw_cache (s : State) : (nextDraw s).cache = s.cache := rfl
@[simp] theorem nextDraw_prev (s : State) : (nextDraw s).prev = s.prev := rfl
@[simp] theorem nextDraw_run (s : State) : (nextDraw s).run = s.run := rfl
@[simp] theorem nextDraw_npix (s : State) : (nextDraw s).npix = s.npix := rfl
@[simp] theorem nextDraw_pxCnt (s : State) : (nextDraw s).pxCnt = s.pxCnt := rfl
@[simp] theorem nextDraw_pc (s : State) : (nextDraw s).pc = s.pc := rfl
@[simp] theorem nextDraw_inMem (s : State) : (nextDraw s).inMem = s.inMem := rfl
@[simp] theorem nextDraw_pixIn (s : State) : (nextDraw s).pixIn = s.pixIn := rfl
@[simp] theorem nextDraw_out (s : State) : (nextDraw s).out = s.out := rfl
@[simp] theorem nextDraw_pixOut (s : State) : (nextDraw s).pixOut = s.pixOut := rfl
@[simp] theorem nextDraw_cmd (s : State) : (nextDraw s).cmd = s.cmd := rfl
@[simp] theorem nextDraw_rsp (s : State) : (nextDraw s).rsp = s.rsp := rfl
@[simp] theorem nextDraw_rst (s : State) : (nextDraw s).rst = s.rst := rfl
@[simp] theorem nextDraw_hdrDone (s : State) : (nextDraw s).hdrDone = s.hdrDone := rfl
@[simp] theorem nextDraw_draws (s : State) : (nextDraw s).draws = s.draws + 1 := rfl

-- `freeWorking` (R180: the working registers, OUT_LEN and END_PC)
@[simp] theorem freeWorking_op (s : State) : (freeWorking s).op = s.op := rfl
@[simp] theorem freeWorking_width (s : State) : (freeWorking s).width = s.width := rfl
@[simp] theorem freeWorking_height (s : State) : (freeWorking s).height = s.height := rfl
@[simp] theorem freeWorking_channels (s : State) : (freeWorking s).channels = s.channels := rfl
@[simp] theorem freeWorking_colorspace (s : State) : (freeWorking s).colorspace = s.colorspace := rfl
@[simp] theorem freeWorking_len (s : State) : (freeWorking s).len = s.len := rfl
@[simp] theorem freeWorking_phase (s : State) : (freeWorking s).phase = s.phase := rfl
@[simp] theorem freeWorking_err (s : State) : (freeWorking s).err = s.err := rfl
@[simp] theorem freeWorking_outLen (s : State) : (freeWorking s).outLen = Config.freeOutLen s.draws := rfl
@[simp] theorem freeWorking_endPc (s : State) : (freeWorking s).endPc = Config.freeEndPc s.draws := rfl
@[simp] theorem freeWorking_cache (s : State) : (freeWorking s).cache = Config.freeCache s.draws := rfl
@[simp] theorem freeWorking_prev (s : State) : (freeWorking s).prev = Config.freePrev s.draws := rfl
@[simp] theorem freeWorking_run (s : State) : (freeWorking s).run = (Config.freeRun s.draws).toNat := rfl
@[simp] theorem freeWorking_npix (s : State) : (freeWorking s).npix = (Config.freeNpix s.draws).toNat := rfl
@[simp] theorem freeWorking_pxCnt (s : State) : (freeWorking s).pxCnt = (Config.freePxCnt s.draws).toNat := rfl
@[simp] theorem freeWorking_pc (s : State) : (freeWorking s).pc = (Config.freePc s.draws).toNat := rfl
@[simp] theorem freeWorking_inMem (s : State) : (freeWorking s).inMem = s.inMem := rfl
@[simp] theorem freeWorking_pixIn (s : State) : (freeWorking s).pixIn = s.pixIn := rfl
@[simp] theorem freeWorking_out (s : State) : (freeWorking s).out = s.out := rfl
@[simp] theorem freeWorking_pixOut (s : State) : (freeWorking s).pixOut = s.pixOut := rfl
@[simp] theorem freeWorking_cmd (s : State) : (freeWorking s).cmd = s.cmd := rfl
@[simp] theorem freeWorking_rsp (s : State) : (freeWorking s).rsp = s.rsp := rfl
@[simp] theorem freeWorking_rst (s : State) : (freeWorking s).rst = s.rst := rfl
@[simp] theorem freeWorking_hdrDone (s : State) : (freeWorking s).hdrDone = s.hdrDone := rfl
@[simp] theorem freeWorking_draws (s : State) : (freeWorking s).draws = s.draws := rfl

-- `freeHeaderRegs` (R84, R180: the header registers)
@[simp] theorem freeHeaderRegs_op (s : State) : (freeHeaderRegs s).op = s.op := rfl
@[simp] theorem freeHeaderRegs_width (s : State) : (freeHeaderRegs s).width = Config.freeWidth s.draws := rfl
@[simp] theorem freeHeaderRegs_height (s : State) : (freeHeaderRegs s).height = Config.freeHeight s.draws := rfl
@[simp] theorem freeHeaderRegs_channels (s : State) : (freeHeaderRegs s).channels = Config.freeChannels s.draws := rfl
@[simp] theorem freeHeaderRegs_colorspace (s : State) : (freeHeaderRegs s).colorspace = Config.freeColorspace s.draws := rfl
@[simp] theorem freeHeaderRegs_len (s : State) : (freeHeaderRegs s).len = s.len := rfl
@[simp] theorem freeHeaderRegs_phase (s : State) : (freeHeaderRegs s).phase = s.phase := rfl
@[simp] theorem freeHeaderRegs_err (s : State) : (freeHeaderRegs s).err = s.err := rfl
@[simp] theorem freeHeaderRegs_outLen (s : State) : (freeHeaderRegs s).outLen = s.outLen := rfl
@[simp] theorem freeHeaderRegs_endPc (s : State) : (freeHeaderRegs s).endPc = s.endPc := rfl
@[simp] theorem freeHeaderRegs_cache (s : State) : (freeHeaderRegs s).cache = s.cache := rfl
@[simp] theorem freeHeaderRegs_prev (s : State) : (freeHeaderRegs s).prev = s.prev := rfl
@[simp] theorem freeHeaderRegs_run (s : State) : (freeHeaderRegs s).run = s.run := rfl
@[simp] theorem freeHeaderRegs_npix (s : State) : (freeHeaderRegs s).npix = s.npix := rfl
@[simp] theorem freeHeaderRegs_pxCnt (s : State) : (freeHeaderRegs s).pxCnt = s.pxCnt := rfl
@[simp] theorem freeHeaderRegs_pc (s : State) : (freeHeaderRegs s).pc = s.pc := rfl
@[simp] theorem freeHeaderRegs_inMem (s : State) : (freeHeaderRegs s).inMem = s.inMem := rfl
@[simp] theorem freeHeaderRegs_pixIn (s : State) : (freeHeaderRegs s).pixIn = s.pixIn := rfl
@[simp] theorem freeHeaderRegs_out (s : State) : (freeHeaderRegs s).out = s.out := rfl
@[simp] theorem freeHeaderRegs_pixOut (s : State) : (freeHeaderRegs s).pixOut = s.pixOut := rfl
@[simp] theorem freeHeaderRegs_cmd (s : State) : (freeHeaderRegs s).cmd = s.cmd := rfl
@[simp] theorem freeHeaderRegs_rsp (s : State) : (freeHeaderRegs s).rsp = s.rsp := rfl
@[simp] theorem freeHeaderRegs_rst (s : State) : (freeHeaderRegs s).rst = s.rst := rfl
@[simp] theorem freeHeaderRegs_hdrDone (s : State) : (freeHeaderRegs s).hdrDone = s.hdrDone := rfl
@[simp] theorem freeHeaderRegs_draws (s : State) : (freeHeaderRegs s).draws = s.draws := rfl

-- `completeEncode` (R144, R163)
@[simp] theorem completeEncode_op (s : State) : (completeEncode s).op = s.op := rfl
@[simp] theorem completeEncode_width (s : State) : (completeEncode s).width = s.width := rfl
@[simp] theorem completeEncode_height (s : State) : (completeEncode s).height = s.height := rfl
@[simp] theorem completeEncode_channels (s : State) : (completeEncode s).channels = s.channels := rfl
@[simp] theorem completeEncode_colorspace (s : State) : (completeEncode s).colorspace = s.colorspace := rfl
@[simp] theorem completeEncode_len (s : State) : (completeEncode s).len = s.len := rfl
@[simp] theorem completeEncode_phase (s : State) : (completeEncode s).phase = .doneOk := rfl
@[simp] theorem completeEncode_err (s : State) : (completeEncode s).err = s.err := rfl
@[simp] theorem completeEncode_outLen (s : State) : (completeEncode s).outLen = outLenOf s.out.length s.draws := rfl
@[simp] theorem completeEncode_endPc (s : State) : (completeEncode s).endPc = s.endPc := rfl
@[simp] theorem completeEncode_cache (s : State) : (completeEncode s).cache = s.cache := rfl
@[simp] theorem completeEncode_prev (s : State) : (completeEncode s).prev = s.prev := rfl
@[simp] theorem completeEncode_run (s : State) : (completeEncode s).run = s.run := rfl
@[simp] theorem completeEncode_npix (s : State) : (completeEncode s).npix = s.npix := rfl
@[simp] theorem completeEncode_pxCnt (s : State) : (completeEncode s).pxCnt = s.pxCnt := rfl
@[simp] theorem completeEncode_pc (s : State) : (completeEncode s).pc = s.pc := rfl
@[simp] theorem completeEncode_inMem (s : State) : (completeEncode s).inMem = s.inMem := rfl
@[simp] theorem completeEncode_pixIn (s : State) : (completeEncode s).pixIn = s.pixIn := rfl
@[simp] theorem completeEncode_out (s : State) : (completeEncode s).out = s.out := rfl
@[simp] theorem completeEncode_pixOut (s : State) : (completeEncode s).pixOut = s.pixOut := rfl
@[simp] theorem completeEncode_cmd (s : State) : (completeEncode s).cmd = s.cmd := rfl
@[simp] theorem completeEncode_rsp (s : State) : (completeEncode s).rsp = s.rsp ++ [responseOf (completeEncode s)] := rfl
@[simp] theorem completeEncode_rst (s : State) : (completeEncode s).rst = s.rst := rfl
@[simp] theorem completeEncode_hdrDone (s : State) : (completeEncode s).hdrDone = s.hdrDone := rfl
@[simp] theorem completeEncode_draws (s : State) : (completeEncode s).draws = s.draws + 1 := rfl

-- `completeDecode` (R165)
@[simp] theorem completeDecode_op (s : State) : (completeDecode s).op = s.op := rfl
@[simp] theorem completeDecode_width (s : State) : (completeDecode s).width = s.width := rfl
@[simp] theorem completeDecode_height (s : State) : (completeDecode s).height = s.height := rfl
@[simp] theorem completeDecode_channels (s : State) : (completeDecode s).channels = s.channels := rfl
@[simp] theorem completeDecode_colorspace (s : State) : (completeDecode s).colorspace = s.colorspace := rfl
@[simp] theorem completeDecode_len (s : State) : (completeDecode s).len = s.len := rfl
@[simp] theorem completeDecode_phase (s : State) : (completeDecode s).phase = .doneOk := rfl
@[simp] theorem completeDecode_err (s : State) : (completeDecode s).err = s.err := rfl
@[simp] theorem completeDecode_outLen (s : State) : (completeDecode s).outLen = BitVec.ofNat 64 s.pxCnt := rfl
@[simp] theorem completeDecode_endPc (s : State) : (completeDecode s).endPc = BitVec.ofNat 64 s.pc := rfl
@[simp] theorem completeDecode_cache (s : State) : (completeDecode s).cache = s.cache := rfl
@[simp] theorem completeDecode_prev (s : State) : (completeDecode s).prev = s.prev := rfl
@[simp] theorem completeDecode_run (s : State) : (completeDecode s).run = s.run := rfl
@[simp] theorem completeDecode_npix (s : State) : (completeDecode s).npix = s.npix := rfl
@[simp] theorem completeDecode_pxCnt (s : State) : (completeDecode s).pxCnt = s.pxCnt := rfl
@[simp] theorem completeDecode_pc (s : State) : (completeDecode s).pc = s.pc := rfl
@[simp] theorem completeDecode_inMem (s : State) : (completeDecode s).inMem = s.inMem := rfl
@[simp] theorem completeDecode_pixIn (s : State) : (completeDecode s).pixIn = s.pixIn := rfl
@[simp] theorem completeDecode_out (s : State) : (completeDecode s).out = s.out := rfl
@[simp] theorem completeDecode_pixOut (s : State) : (completeDecode s).pixOut = s.pixOut := rfl
@[simp] theorem completeDecode_cmd (s : State) : (completeDecode s).cmd = s.cmd := rfl
@[simp] theorem completeDecode_rsp (s : State) : (completeDecode s).rsp = s.rsp ++ [responseOf (completeDecode s)] := rfl
@[simp] theorem completeDecode_rst (s : State) : (completeDecode s).rst = s.rst := rfl
@[simp] theorem completeDecode_hdrDone (s : State) : (completeDecode s).hdrDone = s.hdrDone := rfl
@[simp] theorem completeDecode_draws (s : State) : (completeDecode s).draws = s.draws := rfl

-- `initCall` (R21)
@[simp] theorem initCall_op (s : State) : (initCall s).op = s.op := rfl
@[simp] theorem initCall_width (s : State) : (initCall s).width = s.width := rfl
@[simp] theorem initCall_height (s : State) : (initCall s).height = s.height := rfl
@[simp] theorem initCall_channels (s : State) : (initCall s).channels = s.channels := rfl
@[simp] theorem initCall_colorspace (s : State) : (initCall s).colorspace = s.colorspace := rfl
@[simp] theorem initCall_len (s : State) : (initCall s).len = s.len := rfl
@[simp] theorem initCall_phase (s : State) : (initCall s).phase = s.phase := rfl
@[simp] theorem initCall_err (s : State) : (initCall s).err = s.err := rfl
@[simp] theorem initCall_outLen (s : State) : (initCall s).outLen = s.outLen := rfl
@[simp] theorem initCall_endPc (s : State) : (initCall s).endPc = s.endPc := rfl
@[simp] theorem initCall_cache (s : State) : (initCall s).cache = clearedCache := rfl
@[simp] theorem initCall_prev (s : State) : (initCall s).prev = Config.initialPrev := rfl
@[simp] theorem initCall_run (s : State) : (initCall s).run = 0 := rfl
@[simp] theorem initCall_npix (s : State) : (initCall s).npix = s.npix := rfl
@[simp] theorem initCall_pxCnt (s : State) : (initCall s).pxCnt = 0 := rfl
@[simp] theorem initCall_pc (s : State) : (initCall s).pc = s.pc := rfl
@[simp] theorem initCall_inMem (s : State) : (initCall s).inMem = s.inMem := rfl
@[simp] theorem initCall_pixIn (s : State) : (initCall s).pixIn = s.pixIn := rfl
@[simp] theorem initCall_out (s : State) : (initCall s).out = [] := rfl
@[simp] theorem initCall_pixOut (s : State) : (initCall s).pixOut = [] := rfl
@[simp] theorem initCall_cmd (s : State) : (initCall s).cmd = s.cmd := rfl
@[simp] theorem initCall_rsp (s : State) : (initCall s).rsp = s.rsp := rfl
@[simp] theorem initCall_rst (s : State) : (initCall s).rst = s.rst := rfl
@[simp] theorem initCall_hdrDone (s : State) : (initCall s).hdrDone = false := rfl
@[simp] theorem initCall_draws (s : State) : (initCall s).draws = s.draws := rfl

-- `loadCommand` (R18, R160)
@[simp] theorem loadCommand_op (c : Command) (s : State) : (loadCommand c s).op = c.op := rfl
@[simp] theorem loadCommand_width (c : Command) (s : State) : (loadCommand c s).width = c.width := rfl
@[simp] theorem loadCommand_height (c : Command) (s : State) : (loadCommand c s).height = c.height := rfl
@[simp] theorem loadCommand_channels (c : Command) (s : State) : (loadCommand c s).channels = c.channels := rfl
@[simp] theorem loadCommand_colorspace (c : Command) (s : State) : (loadCommand c s).colorspace = c.colorspace := rfl
@[simp] theorem loadCommand_len (c : Command) (s : State) : (loadCommand c s).len = c.len := rfl
@[simp] theorem loadCommand_phase (c : Command) (s : State) : (loadCommand c s).phase = s.phase := rfl
@[simp] theorem loadCommand_err (c : Command) (s : State) : (loadCommand c s).err = s.err := rfl
@[simp] theorem loadCommand_outLen (c : Command) (s : State) : (loadCommand c s).outLen = s.outLen := rfl
@[simp] theorem loadCommand_endPc (c : Command) (s : State) : (loadCommand c s).endPc = s.endPc := rfl
@[simp] theorem loadCommand_cache (c : Command) (s : State) : (loadCommand c s).cache = s.cache := rfl
@[simp] theorem loadCommand_prev (c : Command) (s : State) : (loadCommand c s).prev = s.prev := rfl
@[simp] theorem loadCommand_run (c : Command) (s : State) : (loadCommand c s).run = s.run := rfl
@[simp] theorem loadCommand_npix (c : Command) (s : State) : (loadCommand c s).npix = s.npix := rfl
@[simp] theorem loadCommand_pxCnt (c : Command) (s : State) : (loadCommand c s).pxCnt = s.pxCnt := rfl
@[simp] theorem loadCommand_pc (c : Command) (s : State) : (loadCommand c s).pc = s.pc := rfl
@[simp] theorem loadCommand_inMem (c : Command) (s : State) : (loadCommand c s).inMem = c.bytes := rfl
@[simp] theorem loadCommand_pixIn (c : Command) (s : State) : (loadCommand c s).pixIn = c.pixels := rfl
@[simp] theorem loadCommand_out (c : Command) (s : State) : (loadCommand c s).out = s.out := rfl
@[simp] theorem loadCommand_pixOut (c : Command) (s : State) : (loadCommand c s).pixOut = s.pixOut := rfl
@[simp] theorem loadCommand_cmd (c : Command) (s : State) : (loadCommand c s).cmd = s.cmd := rfl
@[simp] theorem loadCommand_rsp (c : Command) (s : State) : (loadCommand c s).rsp = s.rsp := rfl
@[simp] theorem loadCommand_rst (c : Command) (s : State) : (loadCommand c s).rst = s.rst := rfl
@[simp] theorem loadCommand_hdrDone (c : Command) (s : State) : (loadCommand c s).hdrDone = s.hdrDone := rfl
@[simp] theorem loadCommand_draws (c : Command) (s : State) : (loadCommand c s).draws = s.draws := rfl

-- `advancePc` (R106)
@[simp] theorem advancePc_op (n : Nat) (s : State) : (advancePc n s).op = s.op := rfl
@[simp] theorem advancePc_width (n : Nat) (s : State) : (advancePc n s).width = s.width := rfl
@[simp] theorem advancePc_height (n : Nat) (s : State) : (advancePc n s).height = s.height := rfl
@[simp] theorem advancePc_channels (n : Nat) (s : State) : (advancePc n s).channels = s.channels := rfl
@[simp] theorem advancePc_colorspace (n : Nat) (s : State) : (advancePc n s).colorspace = s.colorspace := rfl
@[simp] theorem advancePc_len (n : Nat) (s : State) : (advancePc n s).len = s.len := rfl
@[simp] theorem advancePc_phase (n : Nat) (s : State) : (advancePc n s).phase = s.phase := rfl
@[simp] theorem advancePc_err (n : Nat) (s : State) : (advancePc n s).err = s.err := rfl
@[simp] theorem advancePc_outLen (n : Nat) (s : State) : (advancePc n s).outLen = s.outLen := rfl
@[simp] theorem advancePc_endPc (n : Nat) (s : State) : (advancePc n s).endPc = s.endPc := rfl
@[simp] theorem advancePc_cache (n : Nat) (s : State) : (advancePc n s).cache = s.cache := rfl
@[simp] theorem advancePc_prev (n : Nat) (s : State) : (advancePc n s).prev = s.prev := rfl
@[simp] theorem advancePc_run (n : Nat) (s : State) : (advancePc n s).run = s.run := rfl
@[simp] theorem advancePc_npix (n : Nat) (s : State) : (advancePc n s).npix = s.npix := rfl
@[simp] theorem advancePc_pxCnt (n : Nat) (s : State) : (advancePc n s).pxCnt = s.pxCnt := rfl
@[simp] theorem advancePc_pc (n : Nat) (s : State) : (advancePc n s).pc = s.pc + n := rfl
@[simp] theorem advancePc_inMem (n : Nat) (s : State) : (advancePc n s).inMem = s.inMem := rfl
@[simp] theorem advancePc_pixIn (n : Nat) (s : State) : (advancePc n s).pixIn = s.pixIn := rfl
@[simp] theorem advancePc_out (n : Nat) (s : State) : (advancePc n s).out = s.out := rfl
@[simp] theorem advancePc_pixOut (n : Nat) (s : State) : (advancePc n s).pixOut = s.pixOut := rfl
@[simp] theorem advancePc_cmd (n : Nat) (s : State) : (advancePc n s).cmd = s.cmd := rfl
@[simp] theorem advancePc_rsp (n : Nat) (s : State) : (advancePc n s).rsp = s.rsp := rfl
@[simp] theorem advancePc_rst (n : Nat) (s : State) : (advancePc n s).rst = s.rst := rfl
@[simp] theorem advancePc_hdrDone (n : Nat) (s : State) : (advancePc n s).hdrDone = s.hdrDone := rfl
@[simp] theorem advancePc_draws (n : Nat) (s : State) : (advancePc n s).draws = s.draws := rfl

-- `commitDecoded` (R117)
@[simp] theorem commitDecoded_op (p : Pixel) (n : Nat) (s : State) : (commitDecoded p n s).op = s.op := rfl
@[simp] theorem commitDecoded_width (p : Pixel) (n : Nat) (s : State) : (commitDecoded p n s).width = s.width := rfl
@[simp] theorem commitDecoded_height (p : Pixel) (n : Nat) (s : State) : (commitDecoded p n s).height = s.height := rfl
@[simp] theorem commitDecoded_channels (p : Pixel) (n : Nat) (s : State) : (commitDecoded p n s).channels = s.channels := rfl
@[simp] theorem commitDecoded_colorspace (p : Pixel) (n : Nat) (s : State) : (commitDecoded p n s).colorspace = s.colorspace := rfl
@[simp] theorem commitDecoded_len (p : Pixel) (n : Nat) (s : State) : (commitDecoded p n s).len = s.len := rfl
@[simp] theorem commitDecoded_phase (p : Pixel) (n : Nat) (s : State) : (commitDecoded p n s).phase = s.phase := rfl
@[simp] theorem commitDecoded_err (p : Pixel) (n : Nat) (s : State) : (commitDecoded p n s).err = s.err := rfl
@[simp] theorem commitDecoded_outLen (p : Pixel) (n : Nat) (s : State) : (commitDecoded p n s).outLen = s.outLen := rfl
@[simp] theorem commitDecoded_endPc (p : Pixel) (n : Nat) (s : State) : (commitDecoded p n s).endPc = s.endPc := rfl
@[simp] theorem commitDecoded_cache (p : Pixel) (n : Nat) (s : State) : (commitDecoded p n s).cache = s.cache.set (pixelHash p).val p (pixelHash p).isLt := rfl
@[simp] theorem commitDecoded_prev (p : Pixel) (n : Nat) (s : State) : (commitDecoded p n s).prev = p := rfl
@[simp] theorem commitDecoded_run (p : Pixel) (n : Nat) (s : State) : (commitDecoded p n s).run = s.run := rfl
@[simp] theorem commitDecoded_npix (p : Pixel) (n : Nat) (s : State) : (commitDecoded p n s).npix = s.npix := rfl
@[simp] theorem commitDecoded_pxCnt (p : Pixel) (n : Nat) (s : State) : (commitDecoded p n s).pxCnt = s.pxCnt + n := rfl
@[simp] theorem commitDecoded_pc (p : Pixel) (n : Nat) (s : State) : (commitDecoded p n s).pc = s.pc := rfl
@[simp] theorem commitDecoded_inMem (p : Pixel) (n : Nat) (s : State) : (commitDecoded p n s).inMem = s.inMem := rfl
@[simp] theorem commitDecoded_pixIn (p : Pixel) (n : Nat) (s : State) : (commitDecoded p n s).pixIn = s.pixIn := rfl
@[simp] theorem commitDecoded_out (p : Pixel) (n : Nat) (s : State) : (commitDecoded p n s).out = s.out := rfl
@[simp] theorem commitDecoded_pixOut (p : Pixel) (n : Nat) (s : State) : (commitDecoded p n s).pixOut = s.pixOut ++ List.replicate n p := rfl
@[simp] theorem commitDecoded_cmd (p : Pixel) (n : Nat) (s : State) : (commitDecoded p n s).cmd = s.cmd := rfl
@[simp] theorem commitDecoded_rsp (p : Pixel) (n : Nat) (s : State) : (commitDecoded p n s).rsp = s.rsp := rfl
@[simp] theorem commitDecoded_rst (p : Pixel) (n : Nat) (s : State) : (commitDecoded p n s).rst = s.rst := rfl
@[simp] theorem commitDecoded_hdrDone (p : Pixel) (n : Nat) (s : State) : (commitDecoded p n s).hdrDone = s.hdrDone := rfl
@[simp] theorem commitDecoded_draws (p : Pixel) (n : Nat) (s : State) : (commitDecoded p n s).draws = s.draws := rfl

-- `commitEncoded` (R140)
@[simp] theorem commitEncoded_op (p : Pixel) (s : State) : (commitEncoded p s).op = s.op := rfl
@[simp] theorem commitEncoded_width (p : Pixel) (s : State) : (commitEncoded p s).width = s.width := rfl
@[simp] theorem commitEncoded_height (p : Pixel) (s : State) : (commitEncoded p s).height = s.height := rfl
@[simp] theorem commitEncoded_channels (p : Pixel) (s : State) : (commitEncoded p s).channels = s.channels := rfl
@[simp] theorem commitEncoded_colorspace (p : Pixel) (s : State) : (commitEncoded p s).colorspace = s.colorspace := rfl
@[simp] theorem commitEncoded_len (p : Pixel) (s : State) : (commitEncoded p s).len = s.len := rfl
@[simp] theorem commitEncoded_phase (p : Pixel) (s : State) : (commitEncoded p s).phase = s.phase := rfl
@[simp] theorem commitEncoded_err (p : Pixel) (s : State) : (commitEncoded p s).err = s.err := rfl
@[simp] theorem commitEncoded_outLen (p : Pixel) (s : State) : (commitEncoded p s).outLen = s.outLen := rfl
@[simp] theorem commitEncoded_endPc (p : Pixel) (s : State) : (commitEncoded p s).endPc = s.endPc := rfl
@[simp] theorem commitEncoded_cache (p : Pixel) (s : State) : (commitEncoded p s).cache = s.cache.set (pixelHash p).val p (pixelHash p).isLt := rfl
@[simp] theorem commitEncoded_prev (p : Pixel) (s : State) : (commitEncoded p s).prev = p := rfl
@[simp] theorem commitEncoded_run (p : Pixel) (s : State) : (commitEncoded p s).run = s.run := rfl
@[simp] theorem commitEncoded_npix (p : Pixel) (s : State) : (commitEncoded p s).npix = s.npix := rfl
@[simp] theorem commitEncoded_pxCnt (p : Pixel) (s : State) : (commitEncoded p s).pxCnt = s.pxCnt := rfl
@[simp] theorem commitEncoded_pc (p : Pixel) (s : State) : (commitEncoded p s).pc = s.pc := rfl
@[simp] theorem commitEncoded_inMem (p : Pixel) (s : State) : (commitEncoded p s).inMem = s.inMem := rfl
@[simp] theorem commitEncoded_pixIn (p : Pixel) (s : State) : (commitEncoded p s).pixIn = s.pixIn := rfl
@[simp] theorem commitEncoded_out (p : Pixel) (s : State) : (commitEncoded p s).out = s.out := rfl
@[simp] theorem commitEncoded_pixOut (p : Pixel) (s : State) : (commitEncoded p s).pixOut = s.pixOut := rfl
@[simp] theorem commitEncoded_cmd (p : Pixel) (s : State) : (commitEncoded p s).cmd = s.cmd := rfl
@[simp] theorem commitEncoded_rsp (p : Pixel) (s : State) : (commitEncoded p s).rsp = s.rsp := rfl
@[simp] theorem commitEncoded_rst (p : Pixel) (s : State) : (commitEncoded p s).rst = s.rst := rfl
@[simp] theorem commitEncoded_hdrDone (p : Pixel) (s : State) : (commitEncoded p s).hdrDone = s.hdrDone := rfl
@[simp] theorem commitEncoded_draws (p : Pixel) (s : State) : (commitEncoded p s).draws = s.draws := rfl

-- `takeReset` (R210, R22)
@[simp] theorem takeReset_op (s : State) : (takeReset s).op = Config.freeOp s.draws := rfl
@[simp] theorem takeReset_width (s : State) : (takeReset s).width = Config.freeWidth s.draws := rfl
@[simp] theorem takeReset_height (s : State) : (takeReset s).height = Config.freeHeight s.draws := rfl
@[simp] theorem takeReset_channels (s : State) : (takeReset s).channels = Config.freeChannels s.draws := rfl
@[simp] theorem takeReset_colorspace (s : State) : (takeReset s).colorspace = Config.freeColorspace s.draws := rfl
@[simp] theorem takeReset_len (s : State) : (takeReset s).len = Config.freeLen s.draws := rfl
@[simp] theorem takeReset_phase (s : State) : (takeReset s).phase = .idle := rfl
@[simp] theorem takeReset_err (s : State) : (takeReset s).err = none := rfl
@[simp] theorem takeReset_outLen (s : State) : (takeReset s).outLen = Config.freeOutLen s.draws := rfl
@[simp] theorem takeReset_endPc (s : State) : (takeReset s).endPc = Config.freeEndPc s.draws := rfl
@[simp] theorem takeReset_cache (s : State) : (takeReset s).cache = Config.freeCache s.draws := rfl
@[simp] theorem takeReset_prev (s : State) : (takeReset s).prev = Config.freePrev s.draws := rfl
@[simp] theorem takeReset_run (s : State) : (takeReset s).run = (Config.freeRun s.draws).toNat := rfl
@[simp] theorem takeReset_npix (s : State) : (takeReset s).npix = (Config.freeNpix s.draws).toNat := rfl
@[simp] theorem takeReset_pxCnt (s : State) : (takeReset s).pxCnt = (Config.freePxCnt s.draws).toNat := rfl
@[simp] theorem takeReset_pc (s : State) : (takeReset s).pc = (Config.freePc s.draws).toNat := rfl
@[simp] theorem takeReset_inMem (s : State) : (takeReset s).inMem = s.inMem := rfl
@[simp] theorem takeReset_pixIn (s : State) : (takeReset s).pixIn = s.pixIn := rfl
@[simp] theorem takeReset_out (s : State) : (takeReset s).out = [] := rfl
@[simp] theorem takeReset_pixOut (s : State) : (takeReset s).pixOut = [] := rfl
@[simp] theorem takeReset_cmd (s : State) : (takeReset s).cmd = s.cmd := rfl
@[simp] theorem takeReset_rsp (s : State) : (takeReset s).rsp = s.rsp := rfl
@[simp] theorem takeReset_rst (s : State) : (takeReset s).rst = false := rfl
@[simp] theorem takeReset_hdrDone (s : State) : (takeReset s).hdrDone = false := rfl
@[simp] theorem takeReset_draws (s : State) : (takeReset s).draws = s.draws + 1 := rfl

-- `raise` (R180)
@[simp] theorem raise_op (e : ErrorKind) (s : State) : (raise e s).op = s.op := rfl
@[simp] theorem raise_width (e : ErrorKind) (s : State) : (raise e s).width = Config.freeWidth s.draws := rfl
@[simp] theorem raise_height (e : ErrorKind) (s : State) : (raise e s).height = Config.freeHeight s.draws := rfl
@[simp] theorem raise_channels (e : ErrorKind) (s : State) : (raise e s).channels = Config.freeChannels s.draws := rfl
@[simp] theorem raise_colorspace (e : ErrorKind) (s : State) : (raise e s).colorspace = Config.freeColorspace s.draws := rfl
@[simp] theorem raise_len (e : ErrorKind) (s : State) : (raise e s).len = s.len := rfl
@[simp] theorem raise_phase (e : ErrorKind) (s : State) : (raise e s).phase = .doneErr := rfl
@[simp] theorem raise_err (e : ErrorKind) (s : State) : (raise e s).err = some e := rfl
@[simp] theorem raise_outLen (e : ErrorKind) (s : State) : (raise e s).outLen = Config.freeOutLen s.draws := rfl
@[simp] theorem raise_endPc (e : ErrorKind) (s : State) : (raise e s).endPc = Config.freeEndPc s.draws := rfl
@[simp] theorem raise_cache (e : ErrorKind) (s : State) : (raise e s).cache = Config.freeCache s.draws := rfl
@[simp] theorem raise_prev (e : ErrorKind) (s : State) : (raise e s).prev = Config.freePrev s.draws := rfl
@[simp] theorem raise_run (e : ErrorKind) (s : State) : (raise e s).run = (Config.freeRun s.draws).toNat := rfl
@[simp] theorem raise_npix (e : ErrorKind) (s : State) : (raise e s).npix = (Config.freeNpix s.draws).toNat := rfl
@[simp] theorem raise_pxCnt (e : ErrorKind) (s : State) : (raise e s).pxCnt = (Config.freePxCnt s.draws).toNat := rfl
@[simp] theorem raise_pc (e : ErrorKind) (s : State) : (raise e s).pc = (Config.freePc s.draws).toNat := rfl
@[simp] theorem raise_inMem (e : ErrorKind) (s : State) : (raise e s).inMem = s.inMem := rfl
@[simp] theorem raise_pixIn (e : ErrorKind) (s : State) : (raise e s).pixIn = s.pixIn := rfl
@[simp] theorem raise_out (e : ErrorKind) (s : State) : (raise e s).out = [] := rfl
@[simp] theorem raise_pixOut (e : ErrorKind) (s : State) : (raise e s).pixOut = [] := rfl
@[simp] theorem raise_cmd (e : ErrorKind) (s : State) : (raise e s).cmd = s.cmd := rfl
@[simp] theorem raise_rsp (e : ErrorKind) (s : State) : (raise e s).rsp = s.rsp ++ [responseOf (raise e s)] := rfl
@[simp] theorem raise_rst (e : ErrorKind) (s : State) : (raise e s).rst = s.rst := rfl
@[simp] theorem raise_hdrDone (e : ErrorKind) (s : State) : (raise e s).hdrDone = s.hdrDone := rfl
@[simp] theorem raise_draws (e : ErrorKind) (s : State) : (raise e s).draws = s.draws + 1 := rfl

end Sys2Proof.Machine
end

