-- ==== Sys2Proof/Laws/Ops.lean ====
section
/-!
SUPPORT. One lemma per shared operation, saying once what it can do: the role of an item by PHASE, the reads of IN, the end
of a call, a command, a commit.
-/

namespace Sys2Proof.Machine

-- The phases -----------------------------------------------------------------------------------------------------

theorem Phase.running_iff (p : Phase) : p.running = true ↔ p = .encRun ∨ p = .decRun := by
  cases p <;> simp [Phase.running]

-- The role of an item --------------------------------------------------------------------------------------------

theorem byPhase_encRun {s : State} (h : s.phase = .encRun) (f g : State → State) : byPhase s f g = .next (f s) := by
  simp [byPhase, h]

theorem byPhase_decRun {s : State} (h : s.phase = .decRun) (f g : State → State) : byPhase s f g = .next (g s) := by
  simp [byPhase, h]

theorem byPhase_notRunning {s : State} (h : s.phase.running = false) (f g : State → State) :
    byPhase s f g = .next s := by
  cases hp : s.phase <;> simp_all [byPhase, Phase.running, wait]

/-- What an item does in ENC_RUN. -/
def emitted : Instr → State → State
  | .rgb r g b => emit (encode (.rgb r g b))
  | .rgba r g b a => emit (encode (.rgba r g b a))
  | .index slot => emit (encode (.index slot))
  | .diff dr dg db => emit (encode (.diff dr dg db))
  | .luma dg drDg dbDg => emit (encode (.luma dg drDg dbDg))
  | .run n => fun s => { emit (encode (.run n)) s with run := 0 }
  | .header w h c cs => emitHeader w h c cs
  | .endMarker => fun s => completeEncode (emit (encode .endMarker) s)

/-- The Pixel a chunk stands for in a decoder's state (R111 to R116). -/
def chunkPixel (s : State) : Instr → Pixel
  | .rgb r g b => ⟨r, g, b, s.prev.a⟩
  | .rgba r g b a => ⟨r, g, b, a⟩
  | .index slot => readSlot s slot
  | .diff dr dg db => applyDeltas s.prev dr dg db
  | .luma dg drDg dbDg => applyDeltas s.prev (dg + drDg) dg (dg + dbDg)
  | .run _ => s.prev
  | .header _ _ _ _ => s.prev
  | .endMarker => s.prev

/-- How many copies of it are output (R111 to R116). -/
def chunkCount (s : State) : Instr → Nat
  | .rgb _ _ _ => 1
  | .rgba _ _ _ _ => 1
  | .index _ => 1
  | .diff _ _ _ => 1
  | .luma _ _ _ => 1
  | .run n => min n (s.npix - s.pxCnt)
  | .header _ _ _ _ => 0
  | .endMarker => 0

/-- An item in ENC_RUN is emitted. -/
theorem exec_encRun (i : Instr) {s : State} (h : s.phase = .encRun) : exec i s = .next (emitted i s) := by
  cases i <;> simp only [exec, execRgb, execRgba, execIndex, execDiff, execLuma, execRun, execHeader, execEndMarker,
    byPhase_encRun h, emitted]

/-- A chunk in DEC_RUN is committed: its Pixel, so many times. -/
theorem exec_chunk_decRun (i : Instr) {s : State} (h : s.phase = .decRun) (hc : i.isChunk = true) :
    exec i s = .next (commitDecoded (chunkPixel s i) (chunkCount s i) s) := by
  cases i <;> simp only [Instr.isChunk, Bool.false_eq_true] at hc <;>
    simp only [exec, execRgb, execRgba, execIndex, execDiff, execLuma, execRun, byPhase_decRun h, chunkPixel, chunkCount]

/-- A HEADER in DEC_RUN is accepted or ends the call. -/
theorem exec_header_decRun (w h : BitVec 32) (c cs : Byte) {s : State} (hp : s.phase = .decRun) :
    exec (.header w h c cs) s = .next (acceptHeader w h c cs s) := byPhase_decRun hp _ _

/-- Every item gives a next state in every state. -/
theorem exec_isNext (i : Instr) (s : State) : ∃ t, exec i s = .next t := by
  cases i <;> (cases hp : s.phase <;> exact ⟨_, by simp only [exec, execRgb, execRgba, execIndex, execDiff, execLuma,
    execRun, execHeader, execEndMarker, byPhase, hp, wait]; rfl⟩)

-- The commit -----------------------------------------------------------------------------------------------------

theorem readSlot_commitDecoded (p : Pixel) (n : Nat) (s : State) (i : Slot) :
    readSlot (commitDecoded p n s) i = if i = pixelHash p then p else readSlot s i := by
  simp only [readSlot, commitDecoded_cache, Fin.getElem_fin, Vector.getElem_set, Fin.ext_iff, eq_comm]

theorem readSlot_commitEncoded (p : Pixel) (s : State) (i : Slot) :
    readSlot (commitEncoded p s) i = if i = pixelHash p then p else readSlot s i := by
  simp only [readSlot, commitEncoded_cache, Fin.getElem_fin, Vector.getElem_set, Fin.ext_iff, eq_comm]

/-- The decoder's commit, as R117 writes it. -/
theorem commits_commitDecoded (p : Pixel) (n : Nat) (s : State) : Commits s (commitDecoded p n s) p n :=
  ⟨rfl, rfl, rfl, readSlot_commitDecoded p n s, rfl⟩

theorem readSlot_clearedCache (s : State) (h : s.cache = clearedCache) (i : Slot) :
    readSlot s i = Config.clearedPixel := by
  simp [readSlot, h, clearedCache]

-- Reading IN -----------------------------------------------------------------------------------------------------

/-- `MemRead` returns bytes exactly when they lie inside LEN and are delivered. -/
theorem memRead_eq_got_iff (s : State) (a n : Nat) (bs : List Byte) :
    memRead s a n = .got bs ↔ a + n ≤ s.len.toNat ∧ Memory.readBytes s.inMem a n = some bs := by
  unfold memRead
  split
  · simp; omega
  · split <;> simp_all

/-- `MemRead` fails exactly when the last offset is not inside LEN (R8). -/
theorem memRead_eq_pastEnd_iff (s : State) (a n : Nat) : memRead s a n = .pastEnd ↔ s.len.toNat < a + n := by
  unfold memRead
  split
  · simp_all
  · split <;> simp_all

theorem memReadByte_eq_got_iff (s : State) (a : Nat) (b : Byte) :
    memReadByte s a = .got b ↔ a < s.len.toNat ∧ Memory.read s.inMem a = some b := by
  unfold memReadByte
  split
  · simp; omega
  · split <;> simp_all

theorem memReadByte_eq_pastEnd_iff (s : State) (a : Nat) : memReadByte s a = .pastEnd ↔ s.len.toNat ≤ a := by
  unfold memReadByte
  split
  · simp; omega
  · split <;> simp <;> omega

-- The end of a call ----------------------------------------------------------------------------------------------

/-- `raise E`, as R180 writes it. -/
theorem raise_endsInError (e : ErrorKind) (s : State) : EndsInError s (raise e s) e :=
  ⟨by simp, by simp, responseOf (raise e s), by simp, by simp [responseOf], by simp [responseOf]⟩

-- A command ------------------------------------------------------------------------------------------------------

/-- A command either starts no call and changes nothing, or starts one from the per-call state. -/
theorem startCall_cases (c : Command) (s : State) :
    (c.op ≠ 1 ∧ c.op ≠ 2 ∧ startCall c s = s) ∨
    (c.op = 1 ∧ startCall c s = { initCall (loadCommand c s) with err := none, phase := .encRun }) ∨
    (c.op = 2 ∧ startCall c s = { initCall (loadCommand c s) with err := none, phase := .decRun }) := by
  unfold startCall operationOf
  by_cases h1 : c.op = 1
  · exact .inr (.inl ⟨h1, by simp [h1]⟩)
  · by_cases h2 : c.op = 2
    · exact .inr (.inr ⟨h2, by simp [h2]⟩)
    · exact .inl ⟨h1, h2, by rw [if_neg h1, if_neg h2]⟩

/-- The host's move: the block waits, or the oldest command is taken. -/
theorem hostStep_cases (s : State) :
    (s.cmd = [] ∧ hostStep s = .next s) ∨
    ∃ c later, s.cmd = c :: later ∧ hostStep s = .next (startCall c { s with cmd := later }) := by
  unfold hostStep wait
  cases h : s.cmd with
  | nil => exact .inl ⟨rfl, rfl⟩
  | cons c later => exact .inr ⟨c, later, rfl, rfl⟩

end Sys2Proof.Machine
end

