-- ==== Sys2Proof/Laws/PerInstr.lean ====
section
/-!
SUPPORT. What is said of every instruction as syntax: the encoder writes as many bytes as the table's `length_bytes`
gives the instruction, which is at least one.
-/

namespace Sys2Proof.Laws.EncodedLength

/-- The encoding of an instruction has the instruction's length, and is not empty (R51 to R60). -/
def Statement (i : Instr) : Prop := (encode i).length = i.length ∧ 1 ≤ i.length

theorem rgb (r g b : Byte) : Statement (.rgb r g b) := ⟨rfl, Nat.succ_pos _⟩

theorem rgba (r g b a : Byte) : Statement (.rgba r g b a) := ⟨rfl, Nat.succ_pos _⟩

theorem index (slot : Slot) : Statement (.index slot) := ⟨rfl, Nat.succ_pos _⟩

theorem diff (dr dg db : Int) : Statement (.diff dr dg db) := ⟨rfl, Nat.succ_pos _⟩

theorem luma (dg drDg dbDg : Int) : Statement (.luma dg drDg dbDg) := ⟨rfl, Nat.succ_pos _⟩

theorem run (n : Nat) : Statement (.run n) := ⟨rfl, Nat.succ_pos _⟩

theorem header (w h : BitVec 32) (c cs : Byte) : Statement (.header w h c cs) := ⟨rfl, Nat.succ_pos _⟩

theorem endMarker : Statement .endMarker := ⟨rfl, Nat.succ_pos _⟩

end Sys2Proof.Laws.EncodedLength
end

