-- ==== Sys2Proof/Laws/Step.lean ====
section
/-!
SUPPORT. Everything a step can do, said once: whose turn it is, and the cases of each agent's step.
-/

namespace Sys2Proof.Machine

-- Whose turn it is -----------------------------------------------------------------------------------------------

theorem step_reset {s : State} (h : s.rst = true) : step s = .next (takeReset s) := by simp only [step, blockStep, h, if_true]

theorem step_decoder {s : State} (hr : s.rst = false) (hp : s.phase = .decRun) (hd : s.hdrDone = true) :
    step s = decoderStep s := by
  simp only [step, blockStep, hr, hp, hd, if_true, Bool.false_eq_true, if_false]

theorem step_headerDecode {s : State} (hr : s.rst = false) (hp : s.phase = .decRun) (hd : s.hdrDone = false) :
    step s = headerDecodeStep s := by
  simp only [step, blockStep, hr, hp, hd, Bool.false_eq_true, if_false]

theorem step_encoder {s : State} (hr : s.rst = false) (hp : s.phase = .encRun) (hd : s.hdrDone = true) :
    step s = encoderStep s := by
  simp only [step, blockStep, hr, hp, hd, if_true, Bool.false_eq_true, if_false]

theorem step_headerEncode {s : State} (hr : s.rst = false) (hp : s.phase = .encRun) (hd : s.hdrDone = false) :
    step s = headerEncodeStep s := by
  simp only [step, blockStep, hr, hp, hd, Bool.false_eq_true, if_false]

theorem step_host {s : State} (hr : s.rst = false) (hp : s.phase.running = false) : step s = hostStep s := by
  cases h : s.phase <;> simp_all [step, blockStep, Phase.running]

-- The header codec -----------------------------------------------------------------------------------------------

/-- HDR in an encode always emits the HEADER of the command registers, or ends the call (R161). -/
theorem headerEncodeStep_eq {s : State} (hp : s.phase = .encRun) :
    headerEncodeStep s = .next (emitHeader s.width s.height s.channels s.colorspace s) := exec_encRun _ hp

/-- HEADER emitted: the call goes on with the 14 bytes written, or ends in one of the three errors of an encode (R161). -/
theorem emitHeader_cases (w h : BitVec 32) (c cs : Byte) (s : State) :
    (s.len.toNat = w.toNat * h.toNat ∧ emitHeader w h c cs s =
      { emit (encode (.header w h c cs)) s with npix := w.toNat * h.toNat, hdrDone := true }) ∨
    ∃ e n, (e = .invalidDimensions ∨ e = .invalidChannelCount ∨ e = .bufferSizeMismatch) ∧
      emitHeader w h c cs s = raise e { s with npix := n } := by
  by_cases h1 : w = 0 ∨ h = 0
  · exact .inr ⟨.invalidDimensions, s.npix, .inl rfl, by simp only [emitHeader, encodeHeader, if_pos h1]⟩
  · by_cases h2 : channelsLegal c = false
    · exact .inr ⟨.invalidChannelCount, s.npix, .inr (.inl rfl), by
        simp only [emitHeader, encodeHeader, if_neg h1, if_pos h2]⟩
    · by_cases h3 : s.len.toNat = w.toNat * h.toNat
      · refine .inl ⟨h3, ?_⟩
        simp only [emitHeader, encodeHeader, if_neg h1, if_neg h2, if_pos h3]; rfl
      · exact .inr ⟨.bufferSizeMismatch, w.toNat * h.toNat, .inr (.inr rfl), by
          simp only [emitHeader, encodeHeader, if_neg h1, if_neg h2, if_neg h3]⟩

/-- HDR in a decode waits, accepts a legal HEADER inside LEN, or ends the call in an error of `decode_header` (R81). -/
theorem headerDecodeStep_cases {s : State} (hp : s.phase = .decRun) :
    headerDecodeStep s = .next s ∨
    (∃ w h c cs, 14 ≤ s.len.toNat ∧ channelsLegal c = true ∧
      headerDecodeStep s = .next { s with
        width := w, height := h, channels := c, colorspace := cs
        npix := w.toNat * h.toNat, pc := Config.headerBytes, hdrDone := true }) ∨
    ∃ e, (e = .truncatedInput ∨ e = .badMagic ∨ e = .invalidChannelCount) ∧ headerDecodeStep s = .next (raise e s) := by
  unfold headerDecodeStep
  split
  · exact .inr (.inr ⟨_, .inl rfl, rfl⟩)
  · rename_i hlen
    split
    · exact .inr (.inr ⟨_, .inl rfl, rfl⟩)
    · exact .inl rfl
    · split
      · split
        · exact .inr (.inr ⟨_, .inl rfl, rfl⟩)
        · exact .inl rfl
        · split
          · rename_i i rest hi
            obtain ⟨w, h, c, cs, rfl, -⟩ := decodeHeaderItem_ok hi
            rw [exec_header_decRun w h c cs hp]
            by_cases hc : channelsLegal c = true
            · refine .inr (.inl ⟨w, h, c, cs, by simpa [Config.headerBytes] using hlen, hc, ?_⟩)
              rw [acceptHeader, if_pos hc]
            · refine .inr (.inr ⟨.invalidChannelCount, .inr (.inr rfl), ?_⟩)
              rw [acceptHeader, if_neg hc]
          · rename_i e _
            exact .inr (.inr ⟨_, by cases e <;> simp [decodeErrorKind], rfl⟩)
      · exact .inr (.inr ⟨_, .inr (.inl rfl), rfl⟩)

-- The decoder ----------------------------------------------------------------------------------------------------

/-- The fetch returns the bytes of one whole chunk, inside LEN and delivered (R106). -/
theorem fetchChunk_eq_got_iff (s : State) (bs : List Byte) :
    fetchChunk s = .got bs ↔ ∃ b pay, bs = b :: pay ∧ bs.length = (chunkKind b).length ∧
      s.pc + bs.length ≤ s.len.toNat ∧ Memory.readBytes s.inMem s.pc bs.length = some bs := by
  unfold fetchChunk
  constructor
  · intro h
    split at h
    · simp at h
    · simp at h
    · rename_i b hb
      split at h
      · simp at h
      · simp at h
      · rename_i pay hp
        simp only [Fetched.got.injEq] at h
        subst h
        rw [memReadByte_eq_got_iff] at hb
        rw [memRead_eq_got_iff] at hp
        have hl := ((Memory.readBytes_eq_some_iff _ _ _ _).1 hp.2).1
        have := (chunkKind b).length_pos
        refine ⟨b, pay, rfl, by simp only [List.length_cons]; omega, by simp only [List.length_cons]; omega, ?_⟩
        simp only [List.length_cons, Memory.readBytes, hb.2, hl, hp.2]
  · rintro ⟨b, pay, rfl, hl, hle, hr⟩
    have := (chunkKind b).length_pos
    simp only [List.length_cons] at hl hle hr
    simp only [Memory.readBytes] at hr
    split at hr
    · rename_i b' bs' hb hbs
      simp only [Option.some.injEq, List.cons.injEq] at hr
      obtain ⟨rfl, rfl⟩ := hr
      have h1 : memReadByte s s.pc = .got b' := (memReadByte_eq_got_iff _ _ _).2 ⟨by omega, hb⟩
      have h2 : memRead s (s.pc + 1) ((chunkKind b').length - 1) = .got bs' := by
        rw [memRead_eq_got_iff]
        refine ⟨by omega, ?_⟩
        rw [show (chunkKind b').length - 1 = bs'.length by omega]
        exact hbs
      simp [h1, h2]
    · simp at hr

/-- A fetched chunk is decoded, with nothing left over. -/
theorem decode_of_fetchChunk {s : State} {bs : List Byte} (h : fetchChunk s = .got bs) :
    ∃ i, decodeItem .body bs = .ok (i, []) ∧ i.isChunk = true ∧ i.length = bs.length ∧
      s.pc + bs.length ≤ s.len.toNat := by
  obtain ⟨b, pay, rfl, hl, hle, -⟩ := (fetchChunk_eq_got_iff s bs).1 h
  obtain ⟨i, hi⟩ := decodeChunk_isOk b pay (by simp only [List.length_cons] at hl; omega)
  have hd : pay.drop ((chunkKind b).length - 1) = [] := by
    simp only [List.length_cons] at hl; simp only [List.drop_eq_nil_iff]; omega
  rw [hd] at hi
  obtain ⟨b', tail, he, hc, hil, -, -⟩ := decodeChunk_ok hi
  simp only [List.cons.injEq] at he
  obtain ⟨rfl, rfl⟩ := he
  exact ⟨i, hi, hc, by omega, hle⟩

/-- DEC waits, commits the chunk at `pc` with `pc` moved past it, raises at the fetch, or completes (R106, R107, R120). -/
theorem decoderStep_cases {s : State} (hp : s.phase = .decRun) :
    (s.pxCnt < s.npix ∧ decoderStep s = .next s) ∨
    (∃ i n, s.pxCnt < s.npix ∧ i.isChunk = true ∧ i.length = n ∧ s.pc + n ≤ s.len.toNat ∧
      decoderStep s = .next (commitDecoded (chunkPixel s i) (chunkCount s i) (advancePc n s))) ∨
    (s.pxCnt < s.npix ∧ decoderStep s = .next (raise .truncatedInput s)) ∨
    (s.npix ≤ s.pxCnt ∧ decoderStep s = .next (completeDecode s)) := by
  by_cases hn : s.pxCnt < s.npix
  · cases hf : fetchChunk s with
    | pastEnd => exact .inr (.inr (.inl ⟨hn, by simp only [decoderStep, hn, if_true, hf]⟩))
    | withheld => exact .inl ⟨hn, by simp only [decoderStep, hn, if_true, hf, wait]⟩
    | got bs =>
      obtain ⟨i, hi, hc, hl, hle⟩ := decode_of_fetchChunk hf
      refine .inr (.inl ⟨i, bs.length, hn, hc, hl, hle, ?_⟩)
      simp only [decoderStep, hn, if_true, hf, hi]
      rw [exec_chunk_decRun i (by exact hp) hc]
      cases i <;> rfl
  · exact .inr (.inr (.inr ⟨by omega, by simp only [decoderStep, hn, if_false]⟩))

-- The encoder ----------------------------------------------------------------------------------------------------

/-- The selected chunk is a chunk, and never a RUN. -/
theorem selectChunk_isChunk (s : State) (p : Pixel) :
    (selectChunk s p).isChunk = true ∧ ∀ n, selectChunk s p ≠ .run n := by
  unfold selectChunk
  split
  · exact ⟨rfl, by simp⟩
  · split
    · exact ⟨rfl, by simp⟩
    · split
      · exact ⟨rfl, by simp⟩
      · split <;> exact ⟨rfl, by simp⟩

/-- Emitting a chunk that is not a RUN appends its bytes. -/
theorem emitted_chunk {i : Instr} (hc : i.isChunk = true) (hr : ∀ n, i ≠ .run n) (s : State) :
    emitted i s = emit (encode i) s := by
  cases i <;> first | rfl | exact absurd rfl (hr _) | simp [Instr.isChunk] at hc

/-- The state a repeated Pixel leaves (R133). -/
def afterRepeat (s : State) : State :=
  if s.run + 1 = 62 then { emit (encode (.run 62)) s with pxCnt := s.pxCnt + 1, run := 0 }
  else { s with pxCnt := s.pxCnt + 1, run := s.run + 1 }

/-- The bytes of the run a new Pixel breaks (R134). -/
def brokenRun (s : State) : List Byte := if s.run = 0 then [] else encode (.run s.run)

/-- The state a Pixel that is no repeat leaves (R134, R135, R140). -/
def afterNewPixel (p : Pixel) (s : State) : State :=
  commitEncoded p { emit (brokenRun s ++ encode (selectChunk s p)) s with pxCnt := s.pxCnt + 1, run := 0 }

theorem extendRun_eq {s : State} (hp : s.phase = .encRun) :
    extendRun s = .next
      (if s.run + 1 = 62 then { emit (encode (.run 62)) s with run := 0 } else { s with run := s.run + 1 }) := by
  by_cases h : s.run + 1 = 62
  · rw [if_pos h]
    refine (if_pos h).trans ?_
    rw [exec_encRun _ (by exact hp)]
    rfl
  · rw [if_neg h]
    exact if_neg h

/-- The selector reads only the cache and `prev` (R135). -/
theorem selectChunk_congr {s t : State} (hc : t.cache = s.cache) (hp : t.prev = s.prev) (p : Pixel) :
    selectChunk t p = selectChunk s p := by
  cases s; cases t; simp only at hc hp; subst hc hp; rfl

theorem encodePixel_eq {s : State} (hp : s.phase = .encRun) (p : Pixel) :
    encodePixel p s = .next (commitEncoded p { emit (brokenRun s ++ encode (selectChunk s p)) s with run := 0 }) := by
  obtain ⟨hc, hr⟩ := selectChunk_isChunk s p
  have hsel : ∀ t : State, t.phase = .encRun → t.cache = s.cache → t.prev = s.prev →
      andThen (exec (selectChunk t p) t) (fun u => .next (commitEncoded p u)) =
        .next (commitEncoded p (emit (encode (selectChunk s p)) t)) := by
    intro t h1 h2 h3
    rw [selectChunk_congr h2 h3, exec_encRun _ h1, emitted_chunk hc hr]; rfl
  by_cases h0 : s.run = 0
  · have hb : breakRun s = .next s := if_neg (by omega)
    rw [encodePixel, hb]
    refine (hsel s hp rfl rfl).trans ?_
    simp only [brokenRun, h0, if_true, emit, List.nil_append, commitEncoded, writeCache]
  · have hb : breakRun s = .next (emitted (.run s.run) s) := (if_pos (by omega)).trans (exec_encRun _ hp)
    rw [encodePixel, hb]
    refine (hsel (emitted (.run s.run) s) hp rfl rfl).trans ?_
    simp only [brokenRun, h0, if_false, emitted, emit, List.append_assoc]

/-- ENC waits, takes a repeat or a new Pixel, flushes the run, or emits the end marker (R131 to R144). -/
theorem encoderStep_cases {s : State} (hp : s.phase = .encRun) :
    (s.pxCnt < s.npix ∧ s.pixIn[s.pxCnt]? = none ∧ encoderStep s = .next s) ∨
    (s.pxCnt < s.npix ∧ s.pixIn[s.pxCnt]? = some s.prev ∧ encoderStep s = .next (afterRepeat s)) ∨
    (∃ p, s.pxCnt < s.npix ∧ s.pixIn[s.pxCnt]? = some p ∧ p ≠ s.prev ∧ encoderStep s = .next (afterNewPixel p s)) ∨
    (s.npix ≤ s.pxCnt ∧ 0 < s.run ∧ encoderStep s = .next (emitted (.run s.run) s)) ∨
    (s.npix ≤ s.pxCnt ∧ s.run = 0 ∧ encoderStep s = .next (emitted .endMarker s)) := by
  by_cases hn : s.pxCnt < s.npix
  · cases hf : s.pixIn[s.pxCnt]? with
    | none => exact .inl ⟨hn, rfl, by simp only [encoderStep, hn, if_true, pixInAt, hf, wait]⟩
    | some p =>
      by_cases he : p = s.prev
      · subst he
        refine .inr (.inl ⟨hn, rfl, ?_⟩)
        simp only [encoderStep, hn, if_true, pixInAt, hf]
        exact extendRun_eq (s := { s with pxCnt := s.pxCnt + 1 }) hp
      · refine .inr (.inr (.inl ⟨p, hn, rfl, he, ?_⟩))
        simp only [encoderStep, hn, if_true, pixInAt, hf, if_neg he]
        exact encodePixel_eq (s := { s with pxCnt := s.pxCnt + 1 }) hp p
  · by_cases h0 : 0 < s.run
    · refine .inr (.inr (.inr (.inl ⟨by omega, h0, ?_⟩)))
      simp only [encoderStep, hn, if_false, h0, if_true]
      exact exec_encRun _ hp
    · refine .inr (.inr (.inr (.inr ⟨by omega, by omega, ?_⟩)))
      simp only [encoderStep, hn, if_false, h0]
      exact exec_encRun _ hp

-- Everything a step can do ---------------------------------------------------------------------------------------

/-- The cases of a step: what holds before it, and the state after it. -/
inductive Steps (s : State) : State → Prop where
  | takesReset (hr : s.rst = true) : Steps s (takeReset s)
  | waits (hr : s.rst = false) : Steps s s
  | takesCommand (c : Command) (later : List Command) (hr : s.rst = false) (hn : s.phase.running = false)
      (hc : s.cmd = c :: later) : Steps s (startCall c { s with cmd := later })
  | emitsHeader (hr : s.rst = false) (hp : s.phase = .encRun) (hd : s.hdrDone = false) :
      Steps s (emitHeader s.width s.height s.channels s.colorspace s)
  | repeatsPixel (hr : s.rst = false) (hp : s.phase = .encRun) (hd : s.hdrDone = true) (hn : s.pxCnt < s.npix)
      (hx : s.pixIn[s.pxCnt]? = some s.prev) : Steps s (afterRepeat s)
  | newPixel (p : Pixel) (hr : s.rst = false) (hp : s.phase = .encRun) (hd : s.hdrDone = true) (hn : s.pxCnt < s.npix)
      (hx : s.pixIn[s.pxCnt]? = some p) (hne : p ≠ s.prev) : Steps s (afterNewPixel p s)
  | flushesRun (hr : s.rst = false) (hp : s.phase = .encRun) (hd : s.hdrDone = true) (hn : s.npix ≤ s.pxCnt)
      (h0 : 0 < s.run) : Steps s (emitted (.run s.run) s)
  | emitsEnd (hr : s.rst = false) (hp : s.phase = .encRun) (hd : s.hdrDone = true) (hn : s.npix ≤ s.pxCnt)
      (h0 : s.run = 0) : Steps s (emitted .endMarker s)
  | acceptsHeader (w h : BitVec 32) (c cs : Byte) (hr : s.rst = false) (hp : s.phase = .decRun) (hd : s.hdrDone = false)
      (hl : 14 ≤ s.len.toNat) (hc : channelsLegal c = true) :
      Steps s { s with
        width := w, height := h, channels := c, colorspace := cs
        npix := w.toNat * h.toNat, pc := Config.headerBytes, hdrDone := true }
  | headerError (e : ErrorKind) (hr : s.rst = false) (hp : s.phase = .decRun) (hd : s.hdrDone = false)
      (he : e = .truncatedInput ∨ e = .badMagic ∨ e = .invalidChannelCount) : Steps s (raise e s)
  | chunk (i : Instr) (n : Nat) (hr : s.rst = false) (hp : s.phase = .decRun) (hd : s.hdrDone = true)
      (hn : s.pxCnt < s.npix) (hc : i.isChunk = true) (hi : i.length = n) (hl : s.pc + n ≤ s.len.toNat) :
      Steps s (commitDecoded (chunkPixel s i) (chunkCount s i) (advancePc n s))
  | fetchError (hr : s.rst = false) (hp : s.phase = .decRun) (hd : s.hdrDone = true) (hn : s.pxCnt < s.npix) :
      Steps s (raise .truncatedInput s)
  | completes (hr : s.rst = false) (hp : s.phase = .decRun) (hd : s.hdrDone = true) (hn : s.npix ≤ s.pxCnt) :
      Steps s (completeDecode s)

/-- Every step is one of the cases. -/
theorem step_steps (s : State) : ∃ t, step s = .next t ∧ Steps s t := by
  by_cases hr : s.rst = true
  · exact ⟨_, step_reset hr, .takesReset hr⟩
  · have hr : s.rst = false := by simpa using hr
    by_cases hn : s.phase.running = false
    · rw [step_host hr hn]
      obtain ⟨-, h⟩ | ⟨c, later, hc, h⟩ := hostStep_cases s
      · exact ⟨_, h, .waits hr⟩
      · exact ⟨_, h, .takesCommand c later hr hn hc⟩
    · obtain hp | hp := (Phase.running_iff _).1 (by simpa using hn)
      · by_cases hd : s.hdrDone = true
        · rw [step_encoder hr hp hd]
          obtain ⟨-, -, h⟩ | ⟨hn, hx, h⟩ | ⟨p, hn, hx, hne, h⟩ | ⟨hn, h0, h⟩ | ⟨hn, h0, h⟩ := encoderStep_cases hp
          · exact ⟨_, h, .waits hr⟩
          · exact ⟨_, h, .repeatsPixel hr hp hd hn hx⟩
          · exact ⟨_, h, .newPixel p hr hp hd hn hx hne⟩
          · exact ⟨_, h, .flushesRun hr hp hd hn h0⟩
          · exact ⟨_, h, .emitsEnd hr hp hd hn h0⟩
        · have hd : s.hdrDone = false := by simpa using hd
          rw [step_headerEncode hr hp hd]
          exact ⟨_, headerEncodeStep_eq hp, .emitsHeader hr hp hd⟩
      · by_cases hd : s.hdrDone = true
        · rw [step_decoder hr hp hd]
          obtain ⟨-, h⟩ | ⟨i, n, hn, hc, hi, hl, h⟩ | ⟨hn, h⟩ | ⟨hn, h⟩ := decoderStep_cases hp
          · exact ⟨_, h, .waits hr⟩
          · exact ⟨_, h, .chunk i n hr hp hd hn hc hi hl⟩
          · exact ⟨_, h, .fetchError hr hp hd hn⟩
          · exact ⟨_, h, .completes hr hp hd hn⟩
        · have hd : s.hdrDone = false := by simpa using hd
          rw [step_headerDecode hr hp hd]
          obtain h | ⟨w, hh, c, cs, hl, hc, h⟩ | ⟨e, he, h⟩ := headerDecodeStep_cases hp
          · exact ⟨_, h, .waits hr⟩
          · exact ⟨_, h, .acceptsHeader w hh c cs hr hp hd hl hc⟩
          · exact ⟨_, h, .headerError e hr hp hd he⟩

/-- A next state of a step comes from one of the cases. -/
theorem steps_of_step {s t : State} (h : step s = .next t) : Steps s t := by
  obtain ⟨t', h', hs⟩ := step_steps s
  rw [h] at h'
  cases h'
  exact hs

/-- A run of the machine, its first step taken. -/
theorem core_run_succ {s t : State} {n : Nat} (h : step s = .next t) : core.run (n + 1) s = core.run n t := by
  simp only [Host.Core.run, core]; rw [h]

/-- A chunk never takes the count past `npix` (R116, R117). -/
theorem chunkCount_le (s : State) (i : Instr) (h : s.pxCnt < s.npix) : s.pxCnt + chunkCount s i ≤ s.npix := by
  cases i <;> simp [chunkCount] <;> omega

end Sys2Proof.Machine
end

