-- ==== Sys2Proof/Tests/Slice0.lean ====
section
/-!
SUPPORT. Tests of the model on small states. Expected values are from spec/95_test_vectors.md (its vector is named) or
from a rule's own example; a word is written out bit by bit from the formats of spec/30_encoding.md. At the end, for each
statement that has hypotheses, a concrete state and operands that meet them.
-/

namespace Sys2Proof.Tests

open Sys2Proof Sys2Proof.Machine

-- Helpers --------------------------------------------------------------------------------------------------------

/-- One field of a next state. -/
def field {α : Type} (x : Result) (f : State → α) : Option α :=
  match x with
  | .next s => some (f s)
  | .fault _ => none
  | .refused _ => none

/-- What a decoder answers, if it answers. -/
def answer {α : Type} (x : Except DecodeError α) : Option α :=
  match x with
  | .ok a => some a
  | .error _ => none

/-- Why a decoder rejects. -/
def rejection {α : Type} (x : Except DecodeError α) : Option DecodeError :=
  match x with
  | .ok _ => none
  | .error e => some e

/-- A decode of an `n` x 1 image right after its header, with these bytes after it. -/
def decoding (n : Nat) (bs : List Byte) : State :=
  { State.reset with
    op := 2
    phase := .decRun
    hdrDone := true
    width := BitVec.ofNat 32 n
    height := 1
    channels := 4
    npix := n
    len := BitVec.ofNat 64 (14 + bs.length)
    inMem := Memory.writeBytes [] 14 bs }

/-- A decode that has not read its header yet. -/
def decodingHeader (bs : List Byte) : State :=
  { State.reset with
    op := 2
    phase := .decRun
    len := BitVec.ofNat 64 bs.length
    inMem := Memory.ofBytes bs }

/-- An encode of an `n` x 1 image that has not written its header yet. -/
def encodingHeader (w h : BitVec 32) (c : Byte) (ps : List Pixel) : State :=
  { State.reset with
    op := 1
    phase := .encRun
    width := w
    height := h
    channels := c
    len := BitVec.ofNat 64 ps.length
    pixIn := ps }

/-- An encode of these Pixels as one row, right after its header. -/
def encoding (ps : List Pixel) : State :=
  { encodingHeader (BitVec.ofNat 32 ps.length) 1 4 ps with
    hdrDone := true
    npix := ps.length
    out := encode (.header (BitVec.ofNat 32 ps.length) 1 4 0) }

/-- A state with an earlier Pixel: `prev`, its slot, and one Pixel processed. -/
def after (p : Pixel) (s : State) : State := { writeCache p s with prev := p, pxCnt := 1 }

/-- The bytes an encode has emitted after its header. -/
def body (s : State) : List Byte := s.out.drop 14

-- WellFormed: one ill-formed term for each check ------------------------------------------------------------------

theorem test_wf_diff : (Instr.diff (-2) 1 (-2)).wf = true ∧
    [Instr.diff (-3) 0 0, .diff 2 0 0, .diff 0 (-3) 0, .diff 0 2 0, .diff 0 0 (-3), .diff 0 0 2].all (fun i => !i.wf) =
      true := by decide

theorem test_wf_luma : (Instr.luma (-32) 7 (-8)).wf = true ∧ (Instr.luma 31 (-8) 7).wf = true ∧
    [Instr.luma (-33) 0 0, .luma 32 0 0, .luma 0 (-9) 0, .luma 0 8 0, .luma 0 0 (-9), .luma 0 0 8].all
      (fun i => !i.wf) = true := by decide

theorem test_wf_run : (Instr.run 1).wf = true ∧ (Instr.run 62).wf = true ∧ (Instr.run 0).wf = false ∧
    (Instr.run 63).wf = false := by decide

-- Decoding: words written out from the formats --------------------------------------------------------------------

/-- R54: tag `1111_1110`, then r, g, b. -/
theorem test_decode_rgb : answer (decodeChunk [0b11111110, 0b00001100, 0b00100010, 0b00111000, 0b10101010]) =
    some (.rgb 12 34 56, [0b10101010]) := by decide

/-- R55: tag `1111_1111`, then r, g, b, a. -/
theorem test_decode_rgba : answer (decodeChunk [0b11111111, 0b00000001, 0b00000010, 0b00000011, 0b00000100]) =
    some (.rgba 1 2 3 4, []) := by decide

/-- R56: `00`, slot in bits 5:0. -/
theorem test_decode_index : answer (decodeChunk [0b00_100001]) = some (.index 33, []) := by decide

/-- R58: `01`, dr + 2 in bits 5:4, dg + 2 in 3:2, db + 2 in 1:0 (V41, V45). -/
theorem test_decode_diff : answer (decodeChunk [0b01_11_10_11]) = some (.diff 1 0 1, []) ∧
    answer (decodeChunk [0b01_11_01_10]) = some (.diff 1 (-1) 0, []) := by decide

/-- R59: `10`, dg + 32 in bits 5:0; then dr_dg + 8 in bits 7:4 and db_dg + 8 in 3:0 (V12: `A0 58` is -3 in dr_dg). -/
theorem test_decode_luma : answer (decodeChunk [0b10_100000, 0b0101_1000]) = some (.luma 0 (-3) 0, []) ∧
    answer (decodeChunk [0b10_000000, 0b0000_0000]) = some (.luma (-32) (-8) (-8), []) := by decide

/-- R60: `11`, n - 1 in bits 5:0 (V52). -/
theorem test_decode_run : answer (decodeChunk [0b11_111101]) = some (.run 62, []) ∧
    answer (decodeChunk [0b11_000000]) = some (.run 1, []) := by decide

/-- V16: the most significant byte first. -/
theorem test_decode_header : answer (decodeHeaderItem
    [0x71, 0x6F, 0x69, 0x66, 0x01, 0x02, 0x03, 0x04, 0x0A, 0x0B, 0x0C, 0x0D, 0x04, 0x02]) =
      some (.header 16909060 168496141 4 2, []) := by decide

/-- R52: seven zero bytes and a one. -/
theorem test_decode_end : answer (decodeEndItem [0, 0, 0, 0, 0, 0, 0, 1]) = some (.endMarker, []) ∧
    rejection (decodeEndItem [0, 0, 0, 0, 0, 0, 0, 2]) = some .notEndMarker := by decide

/-- V18, V32: what is rejected, and as what. -/
theorem test_decode_rejects : rejection (decodeChunk [0xFE, 0xAA]) = some .truncated ∧
    rejection (decodeChunk [0xFF, 0xAA, 0xBB, 0xCC]) = some .truncated ∧
    rejection (decodeChunk []) = some .truncated ∧
    rejection (decodeHeaderItem [0x71, 0x6F, 0x69]) = some .truncated ∧
    rejection (decodeHeaderItem [0x71, 0x6F, 0x69, 0x67, 0, 0, 0, 1, 0, 0, 0, 1, 4, 0]) = some .badMagic := by decide

/-- R61's encodings of the extremes: V12 and V46. -/
theorem test_encode : encode (.diff (-2) (-2) (-2)) = [0x40] ∧ encode (.diff 1 1 1) = [0x7F] ∧
    encode (.luma (-32) (-8) (-8)) = [0x80, 0x00] ∧ encode (.luma 31 7 7) = [0xBF, 0xFF] ∧
    encode (.run 62) = [0xFD] ∧ encode (.index 33) = [0x21] ∧
    encode (.header 13 10 3 1) = [0x71, 0x6F, 0x69, 0x66, 0, 0, 0, 0x0D, 0, 0, 0, 0x0A, 3, 1] := by decide

/-- A table row's word is read as the row's instruction: the chunk rows with their operand bits zero, HEADER in both
numberings of its magic, END. -/
theorem test_table_words : decodeTableWord 32 0xFE = some (.rgb 0 0 0) ∧ decodeTableWord 40 0xFF = some (.rgba 0 0 0 0) ∧
    decodeTableWord 8 0x00 = some (.index 0) ∧ decodeTableWord 8 0x40 = some (.diff (-2) (-2) (-2)) ∧
    decodeTableWord 16 0x80 = some (.luma (-32) (-8) (-8)) ∧ decodeTableWord 8 0xC0 = some (.run 1) ∧
    decodeTableWord 112 0x716F6966 = some (.header 0 0 0 0) ∧ decodeTableWord 112 0x66696F71 = some (.header 0 0 0 0) ∧
    decodeTableWord 64 (2 ^ 56) = some .endMarker := by decide

/-- The word placed where the first step after reset runs it is run: RGB commits its Pixel; END completes. -/
theorem test_fetch_word : field (step (State.reset.withFetchWord 32 0x382200FE)) (fun s => (s.pixOut, s.pc)) =
      some ([⟨0x00, 0x22, 0x38, 255⟩], 18) ∧
    field (step (State.reset.withFetchWord 64 (2 ^ 56))) (fun s => (s.out, s.phase)) =
      some ([0, 0, 0, 0, 0, 0, 0, 1], .doneOk) := by decide

-- Pixel arithmetic -----------------------------------------------------------------------------------------------

/-- V10. -/
theorem test_hash : pixelHash ⟨12, 34, 56, 255⟩ = 11 ∧ pixelHash ⟨0, 0, 0, 255⟩ = 53 ∧ pixelHash ⟨255, 255, 255, 255⟩ = 38 ∧
    pixelHash ⟨1, 2, 3, 4⟩ = 14 := by decide

/-- V11. -/
theorem test_deltas : pixelDeltas ⟨0, 255, 0, 255⟩ ⟨255, 0, 0, 255⟩ = ⟨1, -1, 0⟩ ∧
    pixelDeltas ⟨128, 0, 0, 255⟩ ⟨0, 0, 0, 255⟩ = ⟨-128, 0, 0⟩ := by decide

/-- V12. -/
theorem test_fits : diffFits ⟨98, 98, 98, 255⟩ ⟨100, 100, 100, 255⟩ = true ∧
    diffFits ⟨102, 100, 100, 255⟩ ⟨100, 100, 100, 255⟩ = false ∧ lumaFits ⟨138, 131, 138, 255⟩ ⟨100, 100, 100, 255⟩ = true ∧
    lumaFits ⟨132, 132, 132, 255⟩ ⟨100, 100, 100, 255⟩ = false ∧ lumaFits ⟨98, 98, 98, 254⟩ ⟨100, 100, 100, 255⟩ = false := by
  decide

/-- R13: r [31:24], g [23:16], b [15:8], a [7:0]. -/
theorem test_pack : packPixel ⟨0x12, 0x34, 0x56, 0x78⟩ = 0x12345678 := by decide

-- One step of the decoder per chunk -------------------------------------------------------------------------------

/-- V1: the Pixel, END_PC's `pc`, and its slot. -/
theorem test_rgb_decodes : field (step (decoding 1 [0xFE, 0x0C, 0x22, 0x38]))
    (fun s => (s.pixOut, s.pc, s.pxCnt, readSlot s 11)) =
      some ([⟨12, 34, 56, 255⟩], 18, 1, ⟨12, 34, 56, 255⟩) := by decide

/-- V31. -/
theorem test_rgba_decodes : field (step (decoding 1 [0xFF, 0xAA, 0xBB, 0xCC, 0xDD]))
    (fun s => (s.pixOut, s.pc, readSlot s 56)) = some ([⟨170, 187, 204, 221⟩], 19, ⟨170, 187, 204, 221⟩) := by decide

/-- R113: an INDEX of a slot never written gives (0,0,0,0), and its commit writes slot 0. -/
theorem test_index_decodes : field (step (decoding 1 [0x21])) (fun s => (s.pixOut, s.prev, s.pc)) =
    some ([⟨0, 0, 0, 0⟩], ⟨0, 0, 0, 0⟩, 15) := by decide

/-- V45, the second Pixel: 255 + 1 and 0 - 1 wrap. -/
theorem test_diff_decodes : field (step (after ⟨255, 0, 0, 255⟩ (decoding 2 [0x76])))
    (fun s => (s.prev, readSlot s 48)) = some (⟨0, 255, 0, 255⟩, ⟨0, 255, 0, 255⟩) := by decide

/-- V48: green wraps. -/
theorem test_luma_decodes : field (step (after ⟨10, 250, 10, 255⟩ (decoding 2 [0xAA, 0x88])))
    (fun s => (s.prev, s.pc)) = some (⟨20, 4, 20, 255⟩, 16) := by decide

/-- R116: a RUN of 62 with two Pixels still needed. -/
theorem test_run_decodes : field (step (decoding 2 [0xFD])) (fun s => (s.pixOut, s.pxCnt, readSlot s 53)) =
    some ([⟨0, 0, 0, 255⟩, ⟨0, 0, 0, 255⟩], 2, ⟨0, 0, 0, 255⟩) := by decide

/-- V19: a zero width is accepted. -/
theorem test_header_decodes : field (step (decodingHeader [0x71, 0x6F, 0x69, 0x66, 0, 0, 0, 0, 0, 0, 0, 5, 4, 0]))
    (fun s => (s.width, s.height, s.channels, s.npix, s.pc, s.phase)) = some (0, 5, 4, 0, 14, .decRun) := by decide

/-- V18, V32: the errors; `ERR` codes of R181. -/
theorem test_decode_errors :
    field (step (decodingHeader [0x51, 0x4F, 0x49, 0x46, 0, 0, 0, 0, 0, 0, 0, 0, 0, 0])) (fun s => errCode s.err) = some 1 ∧
    field (step (decodingHeader [0x71, 0x6F, 0x69, 0x66, 0, 0, 0, 1, 0, 0, 0, 1, 5, 0])) (fun s => errCode s.err) = some 3 ∧
    field (step (decodingHeader [0x71, 0x6F, 0x69])) (fun s => errCode s.err) = some 4 ∧
    field (step (decoding 1 [0xFE, 0xAA])) (fun s => (errCode s.err, s.phase)) = some (4, .doneErr) := by
  decide

-- One step of the encoder per chunk -------------------------------------------------------------------------------

/-- V40. -/
theorem test_rgb_encodes : field (step (encoding [⟨12, 34, 56, 255⟩])) (fun s => (body s, s.prev)) =
    some ([0xFE, 0x0C, 0x22, 0x38], ⟨12, 34, 56, 255⟩) := by decide

/-- V50, the first Pixel. -/
theorem test_rgba_encodes : field (step (encoding [⟨0, 0, 0, 128⟩])) (fun s => (body s, readSlot s 0)) =
    some ([0xFF, 0x00, 0x00, 0x00, 0x80], ⟨0, 0, 0, 128⟩) := by decide

/-- V44, the first Pixel hits the cleared slot 0. -/
theorem test_index_encodes : field (step (encoding [⟨0, 0, 0, 0⟩])) body = some [0x00] := by decide

/-- V45, the first Pixel. -/
theorem test_diff_encodes : field (step (encoding [⟨255, 0, 0, 255⟩])) body = some [0x5A] := by decide

/-- V46. -/
theorem test_luma_encodes :
    field (step (after ⟨100, 100, 100, 255⟩ (encoding [⟨100, 100, 100, 255⟩, ⟨60, 68, 60, 255⟩]))) body = some [0x80, 0x00] := by
  decide

/-- V43, its second step: the pending run is broken first, and the leading run has not written slot 53. -/
theorem test_run_encodes :
    field (step { encoding [⟨0, 0, 0, 255⟩, ⟨9, 9, 9, 255⟩] with pxCnt := 1, run := 1 })
      (fun s => (body s, s.run, readSlot s 53)) = some ([0xC0, 0xA9, 0x88], 0, ⟨0, 0, 0, 0⟩) := by decide

/-- V14. -/
theorem test_header_encodes :
    field (step { encodingHeader 1 1 3 [⟨12, 34, 56, 255⟩] with colorspace := 1 }) (fun s => (s.out, s.npix)) =
      some ([0x71, 0x6F, 0x69, 0x66, 0, 0, 0, 1, 0, 0, 0, 1, 3, 1], 1) := by decide

/-- V1: the end marker, OUT_LEN = 26, DONE_OK; and V4, V17: the errors of an encode. -/
theorem test_end_encodes :
    field (step { encoding [⟨12, 34, 56, 255⟩] with pxCnt := 1, out := List.replicate 18 0 })
      (fun s => (s.out.drop 18, s.outLen, s.phase)) = some ([0, 0, 0, 0, 0, 0, 0, 1], 26, .doneOk) ∧
    field (step (encodingHeader 0 5 4 [])) (fun s => errCode s.err) = some 2 ∧
    field (step (encodingHeader 1 1 2 [⟨1, 1, 1, 1⟩])) (fun s => errCode s.err) = some 3 ∧
    field (step (encodingHeader 2 1 4 [⟨1, 1, 1, 1⟩])) (fun s => errCode s.err) = some 7 := by decide

-- What the statements assume holds somewhere ----------------------------------------------------------------------

/-- A decode with four Pixels needed and four 1-byte chunks delivered. -/
def dec : State := decoding 4 [0x7B, 0xC1, 0x21, 0x40]

/-- An encode of two Pixels, the first a repeat of `prev`. -/
def enc : State := encoding [⟨0, 0, 0, 255⟩, ⟨9, 9, 9, 255⟩]

/-- The same after its first step: a run of 1 is pending. -/
def encRun1 : State := { enc with pxCnt := 1, run := 1 }

/-- An encode all of whose Pixels are consumed, no run pending. -/
def encAll : State := { enc with pxCnt := 2 }

/-- The command of V1. -/
def encodeCommand : Command :=
  { op := 1, width := 1, height := 1, channels := 3, colorspace := 0, len := 1, bytes := [], pixels := [⟨12, 34, 56, 255⟩] }

/-- The bytes of V1. -/
def v1 : List Byte :=
  [0x71, 0x6F, 0x69, 0x66, 0, 0, 0, 1, 0, 0, 0, 1, 3, 0, 0xFE, 0x0C, 0x22, 0x38, 0, 0, 0, 0, 0, 0, 0, 1]

/-- The command that decodes them. -/
def decodeCommand : Command :=
  { op := 2, width := 0, height := 0, channels := 0, colorspace := 0, len := 26, bytes := Memory.ofBytes v1, pixels := [] }

/-- A block with commands issued. -/
def issued (cs : List Command) : State := { State.reset with cmd := cs }

theorem witness_DecodeOfEncodedItem : [Instr.rgb 0 255 1, .rgba 0 255 1 2, .index 0, .index 63, .diff (-2) 1 0, .diff 1 (-2) (-2),
    .luma (-32) 7 (-8), .luma 31 (-8) 7, .run 1, .run 62, .header 0 0xFFFFFFFF 9 255, .endMarker].all
      (fun i => i.wf) = true := by decide

theorem witness_EncodeOfDecodedChunk : decodeChunk [0x7B, 0x09] = .ok (.diff 1 0 1, [0x09]) := rfl

theorem witness_FirstByteSelectsChunk :
    [(0x00 : Byte), 0x3F, 0x40, 0x7F, 0x80, 0xBF, 0xC0, 0xFD, 0xFE, 0xFF].map chunkKind =
      [.index, .index, .diff, .diff, .luma, .luma, .run, .run, .rgb, .rgba] := by decide

theorem witness_ChunkRejectedOnlyIfTruncated : [(1 : Byte), 2].length + 1 < (chunkKind 0xFE).length ∧
    (chunkKind 0xFE).length ≤ [(1 : Byte), 2, 3].length + 1 ∧ (chunkKind 0x00).length ≤ ([] : List Byte).length + 1 := by
  decide

/-- The three cases, in their order. -/
theorem witness_EncodeHeaderResult : ((0 : BitVec 32) = 0 ∨ (5 : BitVec 32) = 0) ∧
    ¬ ((1 : BitVec 32) = 0 ∨ (1 : BitVec 32) = 0) ∧ ((2 : Byte) ≠ 3 ∧ (2 : Byte) ≠ 4) ∧ ¬ ((4 : Byte) ≠ 3 ∧ (4 : Byte) ≠ 4) := by
  decide

theorem witness_DecodeHeaderResult : (List.replicate 13 (0 : Byte)).length < 14 ∧
    [(0x51 : Byte), 0x4F, 0x49, 0x46] ≠ [0x71, 0x6F, 0x69, 0x66] ∧ ((5 : Byte) ≠ 3 ∧ (5 : Byte) ≠ 4) ∧
    ¬ ((3 : Byte) ≠ 3 ∧ (3 : Byte) ≠ 4) ∧ ¬ ((4 : Byte) ≠ 3 ∧ (4 : Byte) ≠ 4) := by decide

theorem witness_HeaderFunctionsAreInverse : ((1 : BitVec 32) ≠ 0 ∧ (0xFFFFFFFF : BitVec 32) ≠ 0 ∧
      ((3 : Byte) = 3 ∨ (3 : Byte) = 4)) ∧ (v1.take 14).length = 14 ∧ decodeHeader (v1.take 14) = .ok ⟨1, 1, 3, 0⟩ ∧
    (1 : BitVec 32) ≠ 0 := ⟨by decide, rfl, rfl, by decide⟩

theorem witness_ArithmeticWidthsMakeNoDifference : (64 : Byte).toNat % 64 = (0 : Byte).toNat % 64 ∧ (⟨64, 0, 0, 0⟩ : Pixel) ≠ ⟨0, 0, 0, 0⟩ := by decide

theorem witness_DeltasRebuildPixel : (⟨0, 255, 0, 255⟩ : Pixel).a = (⟨255, 0, 0, 255⟩ : Pixel).a := rfl

theorem witness_RgbExecutes : dec.phase = .decRun := rfl

theorem witness_RgbaExecutes : dec.phase = .decRun := rfl

theorem witness_IndexExecutes : dec.phase = .decRun := rfl

theorem witness_DiffExecutes : dec.phase = .decRun ∧ (Instr.diff (-2) 1 0).wf = true := by decide

theorem witness_LumaExecutes : dec.phase = .decRun ∧ (Instr.luma (-32) 7 (-8)).wf = true := by decide

/-- Both clauses: a RUN of 3 of the 4 Pixels, one of 62, and one that ends exactly at `npix` meets both. -/
theorem witness_RunExecutes : dec.phase = .decRun ∧ dec.pxCnt < dec.npix ∧ (Instr.run 3).wf = true ∧
    3 ≤ dec.npix - dec.pxCnt ∧ (Instr.run 62).wf = true ∧ dec.npix - dec.pxCnt ≤ 62 ∧ (Instr.run 4).wf = true ∧
    4 ≤ dec.npix - dec.pxCnt ∧ dec.npix - dec.pxCnt ≤ 4 := by decide

theorem witness_ChunkExecutionFrame : dec.phase = .decRun ∧ (Instr.run 2).isChunk = true ∧
    exec (.run 2) dec = .next (commitDecoded ⟨0, 0, 0, 255⟩ 2 dec) := ⟨rfl, rfl, rfl⟩

theorem witness_LiteralChunksEmitted : enc.phase = .encRun := rfl

theorem witness_TaggedChunksEmitted : enc.phase = .encRun ∧ (Instr.diff (-2) 1 0).wf = true ∧
    (Instr.luma (-32) 7 (-8)).wf = true ∧ (Instr.luma 31 (-8) 7).wf = true := by decide

theorem witness_RunEmitted : encRun1.phase = .encRun ∧ (Instr.run 1).wf = true ∧ (Instr.run 62).wf = true := by decide

/-- Both clauses on `run`: an INDEX, and a RUN. -/
theorem witness_ChunkEmissionFrame : enc.phase = .encRun ∧ (Instr.index 5).isChunk = true ∧
    exec (.index 5) enc = .next { enc with out := enc.out ++ [5] } ∧ (∀ n, Instr.index 5 ≠ .run n) ∧
    (Instr.run 1).isChunk = true ∧ exec (.run 1) encRun1 = .next { encRun1 with out := enc.out ++ [0xC0], run := 0 } :=
  ⟨rfl, rfl, rfl, fun _ => Instr.noConfusion, rfl, rfl⟩

theorem witness_HeaderExecutes : (decodingHeader v1).phase = .decRun ∧ ((3 : Byte) = 3 ∨ (3 : Byte) = 4) := by decide

theorem witness_HeaderWithBadChannels : (decodingHeader v1).phase = .decRun ∧ (2 : Byte) ≠ 3 ∧ (2 : Byte) ≠ 4 := by decide

theorem witness_HeaderEmitted : (encodingHeader 1 1 4 [⟨1, 1, 1, 1⟩]).phase = .encRun ∧ (1 : BitVec 32) ≠ 0 ∧
    ((4 : Byte) = 3 ∨ (4 : Byte) = 4) ∧
    (encodingHeader 1 1 4 [⟨1, 1, 1, 1⟩]).len.toNat = (1 : BitVec 32).toNat * (1 : BitVec 32).toNat := by decide

/-- The four cases, in their order: each state meets no earlier case's test. -/
theorem witness_EncodePreChecks : [encodingHeader 0 5 4 [], encodingHeader 1 1 2 [], encodingHeader 2 1 4 [],
    encodingHeader 1 1 4 [⟨1, 1, 1, 1⟩]].map
      (fun s => (decide (s.rst = false ∧ s.phase = .encRun ∧ s.hdrDone = false), decide (s.width = 0 ∨ s.height = 0),
        decide (s.channels ≠ 3 ∧ s.channels ≠ 4), decide (s.len.toNat ≠ s.width.toNat * s.height.toNat))) =
      [(true, true, false, false), (true, false, true, true), (true, false, false, true), (true, false, false, false)] := by
  decide

theorem witness_EndMarkerEmitted : encAll.phase = .encRun ∧ (encAll.out ++ [0, 0, 0, 0, 0, 0, 0, 1]).length < 2 ^ 64 := by decide

theorem witness_ItemsWithoutEffect : dec.phase = .decRun ∧ State.reset.phase.running = false := by decide

theorem witness_StepRunsFetchedChunk : dec.rst = false ∧ dec.phase = .decRun ∧ dec.hdrDone = true ∧ dec.pxCnt < dec.npix ∧
    dec.pc + [(0x7B : Byte)].length ≤ dec.len.toNat ∧ Memory.readBytes dec.inMem dec.pc 1 = some [0x7B] ∧
    decodeChunk [0x7B] = .ok (.diff 1 0 1, []) :=
  ⟨by decide, by decide, by decide, by decide, by decide, by decide, rfl⟩

theorem witness_StepRunsHeader : (decodingHeader v1).rst = false ∧ (decodingHeader v1).phase = .decRun ∧
    (decodingHeader v1).hdrDone = false ∧ 14 ≤ (decodingHeader v1).len.toNat ∧
    Memory.readBytes (decodingHeader v1).inMem 0 14 = some (v1.take 14) ∧
    decodeHeaderItem (v1.take 14) = .ok (.header 1 1 3 0, []) :=
  ⟨by decide, by decide, by decide, by decide, by decide, rfl⟩

/-- LEN = 13, and a wrong magic with LEN = 14. -/
theorem witness_HeaderStepErrors : (decodingHeader (v1.take 13)).rst = false ∧ (decodingHeader (v1.take 13)).phase = .decRun ∧
    (decodingHeader (v1.take 13)).hdrDone = false ∧ (decodingHeader (v1.take 13)).len.toNat < 14 ∧
    14 ≤ (decodingHeader (0x51 :: (v1.take 14).tail)).len.toNat ∧
    Memory.readBytes (decodingHeader (0x51 :: (v1.take 14).tail)).inMem 0 4 = some [0x51, 0x6F, 0x69, 0x66] ∧
    [(0x51 : Byte), 0x6F, 0x69, 0x66] ≠ [0x71, 0x6F, 0x69, 0x66] := by decide

/-- Both ways to be cut off: nothing left, and a first byte without its payload. -/
theorem witness_TruncatedChunkRaises : (decoding 1 []).rst = false ∧ (decoding 1 []).phase = .decRun ∧
    (decoding 1 []).hdrDone = true ∧ (decoding 1 []).pxCnt < (decoding 1 []).npix ∧
    (decoding 1 []).len.toNat ≤ (decoding 1 []).pc ∧
    ((decoding 1 [0x80]).pc < (decoding 1 [0x80]).len.toNat ∧
      Memory.read (decoding 1 [0x80]).inMem (decoding 1 [0x80]).pc = some 0x80 ∧
      (decoding 1 [0x80]).len.toNat < (decoding 1 [0x80]).pc + (chunkKind 0x80).length) := by decide

/-- The decoder's two clauses: the byte at `pc` withheld, and the last payload byte of an RGB at the end of LEN. -/
theorem witness_WithheldItemWaits :
    [{ dec with inMem := [] }, { dec with inMem := [(14, 0xFE), (15, 1), (16, 2)] }].all (fun s => decide
      (s.rst = false ∧ s.phase = .decRun ∧ s.hdrDone = true ∧ s.pxCnt < s.npix)) = true ∧
    ({ dec with inMem := [] }.pc < { dec with inMem := [] }.len.toNat ∧
      Memory.read ({ dec with inMem := [] } : State).inMem dec.pc = none) ∧
    Memory.read [(14, 0xFE), (15, 1), (16, 2)] dec.pc = some 0xFE ∧
    dec.pc + (chunkKind 0xFE).length ≤ dec.len.toNat ∧ 3 < (chunkKind 0xFE).length ∧
    Memory.read [(14, 0xFE), (15, 1), (16, 2)] (dec.pc + 3) = none := by decide

/-- HDR's two clauses: a byte of the magic withheld, and the magic there and the last byte withheld. -/
theorem witness_WithheldItemWaits_header :
    [{ decodingHeader v1 with inMem := Memory.ofBytes (v1.take 3) },
      { decodingHeader v1 with inMem := Memory.ofBytes (v1.take 13) }].all (fun s => decide
      (s.rst = false ∧ s.phase = .decRun ∧ s.hdrDone = false ∧ 14 ≤ s.len.toNat)) = true ∧
    Memory.read (Memory.ofBytes (v1.take 3)) 3 = none ∧
    Memory.readBytes (Memory.ofBytes (v1.take 13)) 0 4 = some [0x71, 0x6F, 0x69, 0x66] ∧
    Memory.read (Memory.ofBytes (v1.take 13)) 13 = none := by decide

/-- The encoder's clause. -/
theorem witness_WithheldItemWaits_pixel : { enc with pixIn := [] }.rst = false ∧ { enc with pixIn := [] }.phase = .encRun ∧
    { enc with pixIn := [] }.hdrDone = true ∧ { enc with pixIn := [] }.pxCnt < { enc with pixIn := [] }.npix ∧
    ({ enc with pixIn := [] } : State).pixIn[enc.pxCnt]? = none := by decide

theorem witness_DecodeCompletes : { dec with pxCnt := 4 }.rst = false ∧ { dec with pxCnt := 4 }.phase = .decRun ∧
    { dec with pxCnt := 4 }.hdrDone = true ∧ { dec with pxCnt := 4 }.npix ≤ { dec with pxCnt := 4 }.pxCnt ∧
    { dec with pxCnt := 4 }.pxCnt < 2 ^ 64 ∧ { dec with pxCnt := 4 }.pc < 2 ^ 64 := by decide

/-- Both cases: a run of 1, and the 62nd Pixel of a run. -/
theorem witness_RepeatExtendsRun : enc.rst = false ∧ enc.phase = .encRun ∧ enc.hdrDone = true ∧ enc.pxCnt < enc.npix ∧
    enc.pixIn[enc.pxCnt]? = some enc.prev ∧ enc.run + 1 ≠ 62 ∧ { enc with run := 61 }.run + 1 = 62 := by decide

theorem witness_NewPixelEmitsChunk : encRun1.rst = false ∧ encRun1.phase = .encRun ∧ encRun1.hdrDone = true ∧
    encRun1.pxCnt < encRun1.npix ∧ encRun1.pixIn[encRun1.pxCnt]? = some ⟨9, 9, 9, 255⟩ ∧
    (⟨9, 9, 9, 255⟩ : Pixel) ≠ encRun1.prev ∧ encRun1.run ≤ 61 := by decide

/-- Each of the five rows is reached (V44, V45, V43, V40, V50). -/
theorem witness_SelectorPriority : [(⟨0, 0, 0, 0⟩ : Pixel), ⟨255, 0, 0, 255⟩, ⟨9, 9, 9, 255⟩, ⟨12, 34, 56, 255⟩,
    ⟨0, 0, 0, 128⟩].map (selectChunk enc) =
      [.index 0, .diff (-1) 0 0, .luma 9 0 0, .rgb 12 34 56, .rgba 0 0 0 128] := by decide

theorem witness_SelectedChunkRebuildsPixel : dec.phase = .decRun ∧ dec.prev = enc.prev ∧
    readSlot dec (pixelHash ⟨9, 9, 9, 255⟩) = readSlot enc (pixelHash ⟨9, 9, 9, 255⟩) ∧
    (⟨9, 9, 9, 255⟩ : Pixel) ≠ enc.prev := by decide

theorem witness_EncoderTerminates : encAll.rst = false ∧ encAll.phase = .encRun ∧ encAll.hdrDone = true ∧
    encAll.npix ≤ encAll.pxCnt ∧ encAll.run = 0 ∧ 0 < { encAll with run := 1 }.run := by decide

theorem witness_CommandStartsCall : (issued [encodeCommand]).rst = false ∧
    (issued [encodeCommand]).phase.running = false ∧ (issued [encodeCommand]).cmd = [encodeCommand] ∧
    encodeCommand.op = 1 ∧ decodeCommand.op = 2 := by decide

/-- The second clause: a call runs and another command waits. -/
theorem witness_CommandStartsCall_running : enc.rst = false ∧ enc.phase.running = true ∧
    step { enc with cmd := [decodeCommand] } = .next { encRun1 with cmd := [decodeCommand] } := ⟨rfl, rfl, rfl⟩

theorem witness_NothingStartsACallBut : State.reset.rst = false ∧ State.reset.phase.running = false ∧
    State.reset.cmd = [] ∧ { encodeCommand with op := 0 }.op = 0 ∧ { encodeCommand with op := 3 }.op = 3 := by decide

/-- In an encode, in a decode that goes on, and where an error ends the call. -/
theorem witness_RunningStepKeepsInputs :
    (enc.rst = false ∧ enc.phase.running = true ∧ step enc = .next encRun1 ∧ enc.phase = .encRun ∧
      encRun1.phase ≠ .doneErr) ∧
    (dec.rst = false ∧ dec.phase.running = true ∧ step { dec with inMem := [] } = .next { dec with inMem := [] }) ∧
    step (decoding 1 []) = .next (raise .truncatedInput (decoding 1 [])) :=
  ⟨⟨rfl, rfl, rfl, rfl, by decide⟩, ⟨rfl, rfl, rfl⟩, rfl⟩

theorem witness_CursorMovesByChunkLength : dec.rst = false ∧ dec.phase = .decRun ∧ dec.hdrDone = true ∧
    step dec = .next (commitDecoded ⟨1, 0, 1, 255⟩ 1 { dec with pc := 15 }) ∧
    (commitDecoded ⟨1, 0, 1, 255⟩ 1 { dec with pc := 15 }).phase = .decRun := ⟨rfl, rfl, rfl, rfl, rfl⟩

theorem witness_ResetRequestIsTaken : { dec with rst := true }.rst = true := rfl

theorem witness_StepKeepsStatusInvariant : StatusInvariant State.reset ∧ step State.reset = .next State.reset :=
  ⟨⟨by decide, fun _ => ⟨rfl, rfl⟩⟩, rfl⟩

/-- A running call, before and after its first Pixel. -/
theorem witness_StepKeepsCacheInvariant : CacheInvariant dec ∧
    step dec = .next (commitDecoded ⟨1, 0, 1, 255⟩ 1 { dec with pc := 15 }) :=
  ⟨fun _ => ⟨fun h => absurd h (by decide), fun i => .inl (by revert i; decide), .inl ⟨⟨rfl, rfl⟩, fun _ => rfl⟩⟩, rfl⟩

theorem witness_StepKeepsDecoderCounters : DecoderCounters dec ∧ dec.phase = .decRun ∧
    step dec = .next (commitDecoded ⟨1, 0, 1, 255⟩ 1 { dec with pc := 15 }) :=
  ⟨fun _ => ⟨rfl, rfl, by decide, by decide⟩, rfl, rfl⟩

theorem witness_StepKeepsEncoderCounters : EncoderCounters enc ∧ enc.phase = .encRun ∧ step enc = .next encRun1 :=
  ⟨fun _ => ⟨rfl, by decide, by decide, by decide, by decide⟩, rfl, rfl⟩

theorem witness_StepKeepsMemoriesCanonical : MemoriesCanonical (issued [decodeCommand]) ∧
    step (issued [decodeCommand]) = .next (startCall decodeCommand (issued [])) :=
  ⟨⟨rfl, by decide⟩, rfl⟩

/-- A state no call reaches, whose ERR already names one of the two errors: the statement's conclusion holds of it. -/
theorem witness_UnreachableErrors : step { State.reset with err := some .malformedRun } =
    .next { State.reset with err := some .malformedRun } := rfl

/-- One state for each of the six ways. -/
theorem witness_ErrorsByOperation :
    [encodingHeader 0 5 4 [], encodingHeader 1 1 2 [⟨1, 1, 1, 1⟩], encodingHeader 2 1 4 [⟨1, 1, 1, 1⟩],
      decodingHeader [], decodingHeader (0 :: v1.tail), decodingHeader (v1.take 12 ++ [5, 0])].map
      (fun s => (s.rst, s.err, field (step s) State.err)) =
    [(false, none, some (some .invalidDimensions)), (false, none, some (some .invalidChannelCount)),
      (false, none, some (some .bufferSizeMismatch)), (false, none, some (some .truncatedInput)),
      (false, none, some (some .badMagic)), (false, none, some (some .invalidChannelCount))] := by decide

/-- Two instances that differ in what earlier calls left. -/
theorem witness_CallsShareNothing :
    (issued [encodeCommand]).rst = false ∧ (issued [encodeCommand]).phase.running = false ∧
    { issued [encodeCommand] with run := 5, err := some .badMagic, phase := .doneErr }.phase.running = false ∧
    encodeCommand.op = 1 ∧ step (issued [encodeCommand]) = .next (startCall encodeCommand (issued [])) ∧
    step { issued [encodeCommand] with run := 5, err := some .badMagic, phase := .doneErr } =
      .next (startCall encodeCommand { issued [] with run := 5, err := some .badMagic, phase := .doneErr }) :=
  ⟨rfl, rfl, rfl, rfl, rfl, rfl⟩

theorem witness_PipelinesIgnoreHeaderRegisters : enc.rst = false ∧ enc.phase.running = true ∧ enc.hdrDone = true ∧
    step enc = .next encRun1 ∧ encRun1.phase.running = true ∧
    step dec = .next (commitDecoded ⟨1, 0, 1, 255⟩ 1 { dec with pc := 15 }) := ⟨rfl, rfl, rfl, rfl, rfl, rfl⟩

theorem enc_cacheInvariant : CacheInvariant enc :=
  fun _ => ⟨fun h => absurd h (by decide), fun i => .inl (by revert i; decide), .inl ⟨⟨rfl, rfl⟩, by decide⟩⟩

/-- A decoder that has followed `enc` so far, with equal caches. -/
theorem witness_DecoderFollowsEncoder : enc.rst = false ∧ enc.phase = .encRun ∧ enc.hdrDone = true ∧ CacheInvariant enc ∧
    EncoderCounters enc ∧ DecoderFollows enc (decoding 2 []) ∧ step enc = .next encRun1 :=
  ⟨rfl, rfl, rfl, enc_cacheInvariant, witness_StepKeepsEncoderCounters.1,
    ⟨rfl, rfl, rfl, fun i => .inl (by revert i; decide), rfl, rfl⟩, rfl⟩

/-- A decoder whose slot 53 differs, after a leading run (V43). -/
theorem witness_DecoderFollowsEncoder_slot53 : DecoderFollows { enc with pxCnt := 1 }
    (commitDecoded ⟨0, 0, 0, 255⟩ 1 (decoding 2 [])) ∧
    readSlot (commitDecoded ⟨0, 0, 0, 255⟩ 1 (decoding 2 [])) 53 ≠ readSlot enc 53 :=
  ⟨⟨rfl, rfl, rfl, by decide, rfl, rfl⟩, by decide⟩

/-- The encode of V1, its four steps, and the command that decodes its output. -/
theorem witness_DecodeOfEncodeIsIdentity :
    (issued [encodeCommand]).rst = false ∧ (issued [encodeCommand]).phase.running = false ∧
    (issued [encodeCommand]).cmd = [encodeCommand] ∧ encodeCommand.op = 1 ∧ encodeCommand.width ≠ 0 ∧
    encodeCommand.height ≠ 0 ∧ (encodeCommand.channels = 3 ∨ encodeCommand.channels = 4) ∧
    encodeCommand.pixels.length = encodeCommand.width.toNat * encodeCommand.height.toNat ∧
    encodeCommand.len.toNat = encodeCommand.pixels.length ∧ 14 + 5 * encodeCommand.pixels.length + 8 < 2 ^ 64 ∧
    field (core.run 4 (issued [encodeCommand])) (fun t => (t.phase, t.out, t.outLen)) = some (.doneOk, v1, 26) ∧
    (issued [decodeCommand]).rst = false ∧ (issued [decodeCommand]).phase.running = false ∧
    (issued [decodeCommand]).cmd = [decodeCommand] ∧ decodeCommand.op = 2 ∧ decodeCommand.len = 26 ∧
    Memory.readBytes decodeCommand.bytes 0 v1.length = some v1 := by decide

end Sys2Proof.Tests
end

section
/-!
PROOFS. The bytes of a header (spec/20_memory.md R33, spec/30_encoding.md R51).
-/

namespace Sys2Proof

/-- R51: the 14 bytes of a HEADER, one by one. -/
theorem encode_header_bytes (w h : BitVec 32) (c cs : Byte) :
    encode (.header w h c cs) = [0x71, 0x6F, 0x69, 0x66,
      w.extractLsb' 24 8, w.extractLsb' 16 8, w.extractLsb' 8 8, w.extractLsb' 0 8,
      h.extractLsb' 24 8, h.extractLsb' 16 8, h.extractLsb' 8 8, h.extractLsb' 0 8, c, cs] := rfl

/-- Settles O6: the bytes are the four 8-bit fields of each dimension, top field first, and by `bigEndian32_toNat` their
base-256 value is that dimension (R33). -/
theorem headerBytesAreBigEndian : Obligations.HeaderBytesAreBigEndian := by
  intro w h c cs
  exact ⟨_, _, _, _, _, _, _, _, encode_header_bytes w h c cs, bigEndian32_toNat w, bigEndian32_toNat h⟩

end Sys2Proof
end

section
/-!
PROOFS. The kind and the length of a chunk from its first byte (spec/30_encoding.md R53).
-/

namespace Sys2Proof

/-- The tag field `b[7:6]` is the byte's quotient by 64: no bit stands above it. -/
theorem byteField_tag (b : Byte) : byteField b 6 2 = b.toNat / 64 := by
  have hb := b.isLt
  unfold byteField
  omega

/-- R53: below the two full-byte tags, the top two bits select the kind. -/
theorem chunkKind_of_lt_fullTags (b : Byte) (hb : b.toNat < 0xFE) :
    (b.toNat / 64 = 0 → chunkKind b = .index) ∧ (b.toNat / 64 = 1 → chunkKind b = .diff) ∧
    (b.toNat / 64 = 2 → chunkKind b = .luma) ∧ (b.toNat / 64 = 3 → chunkKind b = .run) := by
  have hrgb : b ≠ 0xFE := by rintro rfl; exact absurd hb (by decide)
  have hrgba : b ≠ 0xFF := by rintro rfl; exact absurd hb (by decide)
  simp only [chunkKind, hrgb, hrgba, if_false, byteField_tag]
  refine ⟨?_, ?_, ?_, ?_⟩ <;> intro htag <;> simp only [htag]

/-- Settles O3: the two full-byte tags are single values of the byte, every other byte has its kind from its tag field,
and the kind fixes the length. -/
theorem firstByteSelectsChunk : Obligations.FirstByteSelectsChunk := by
  intro b
  refine ⟨fun h => ?rgb, fun h => ?rgba, fun hb h => ?index, fun hb h => ?diff, fun hb h => ?luma, fun hb h => ?run⟩
  case rgb =>
    obtain rfl : b = 0xFE := BitVec.eq_of_toNat_eq h
    exact ⟨rfl, rfl⟩
  case rgba =>
    obtain rfl : b = 0xFF := BitVec.eq_of_toNat_eq h
    exact ⟨rfl, rfl⟩
  case index =>
    obtain ⟨hkind, -, -, -⟩ := chunkKind_of_lt_fullTags b hb
    exact ⟨hkind h, congrArg ChunkKind.length (hkind h)⟩
  case diff =>
    obtain ⟨-, hkind, -, -⟩ := chunkKind_of_lt_fullTags b hb
    exact ⟨hkind h, congrArg ChunkKind.length (hkind h)⟩
  case luma =>
    obtain ⟨-, -, hkind, -⟩ := chunkKind_of_lt_fullTags b hb
    exact ⟨hkind h, congrArg ChunkKind.length (hkind h)⟩
  case run =>
    obtain ⟨-, -, -, hkind⟩ := chunkKind_of_lt_fullTags b hb
    exact ⟨hkind h, congrArg ChunkKind.length (hkind h)⟩

end Sys2Proof
end

section
/-!
PROOFS. The two header functions (spec/40_header_codec.md R80 to R83).
-/

namespace Sys2Proof.Machine

-- `encode_header` (R80), an equation per case ---------------------------------------------------------------------

theorem encodeHeader_of_zero_dimension {w h : BitVec 32} (hdim : w = 0 ∨ h = 0) (c cs : Byte) :
    encodeHeader w h c cs = .error .invalidDimensions := if_pos hdim

theorem encodeHeader_of_bad_channels {w h : BitVec 32} (hdim : ¬ (w = 0 ∨ h = 0)) {c : Byte} (hc : c ≠ 3 ∧ c ≠ 4)
    (cs : Byte) : encodeHeader w h c cs = .error .invalidChannelCount := by
  rw [encodeHeader, if_neg hdim, if_pos ((channelsLegal_eq_false_iff c).2 hc)]

theorem encodeHeader_of_legal {w h : BitVec 32} (hdim : ¬ (w = 0 ∨ h = 0)) {c : Byte} (hc : ¬ (c ≠ 3 ∧ c ≠ 4))
    (cs : Byte) : encodeHeader w h c cs = .ok (encode (.header w h c cs)) := by
  rw [encodeHeader, if_neg hdim, if_neg (mt (channelsLegal_eq_false_iff c).1 hc)]

/-- Settles O7: the two tests in R80's order, then the bytes of R51. -/
theorem encodeHeaderResult : Obligations.EncodeHeaderResult := by
  intro w h c cs
  split_ifs with hdim hc
  · exact encodeHeader_of_zero_dimension hdim c cs
  · exact encodeHeader_of_bad_channels hdim hc cs
  · rw [encodeHeader_of_legal hdim hc, encode_header_bytes]

-- `decode_header` (R81), an equation per case ---------------------------------------------------------------------

theorem decodeHeader_of_length_lt {bs : List Byte} (hlen : bs.length < 14) :
    decodeHeader bs = .error .truncatedInput := by
  have hitem : decodeHeaderItem bs = .error .truncated := by
    unfold decodeHeaderItem
    split
    · simp only [List.length_cons] at hlen
      omega
    · rfl
  rw [decodeHeader, hitem]
  rfl

section
variable {m0 m1 m2 m3 w0 w1 w2 w3 h0 h1 h2 h3 c cs : Byte} {rest : List Byte}

theorem decodeHeader_of_bad_magic (hm : [m0, m1, m2, m3] ≠ Config.magic) :
    decodeHeader ([m0, m1, m2, m3, w0, w1, w2, w3, h0, h1, h2, h3, c, cs] ++ rest) = .error .badMagic := by
  simp only [decodeHeader, decodeHeaderItem, List.cons_append, if_neg hm, decodeErrorKind]

/-- Behind the magic only the channel byte is tested (R81, R83). -/
theorem decodeHeader_of_magic (hm : [m0, m1, m2, m3] = Config.magic) :
    decodeHeader ([m0, m1, m2, m3, w0, w1, w2, w3, h0, h1, h2, h3, c, cs] ++ rest) =
      if channelsLegal c then .ok ⟨ofBigEndian32 w0 w1 w2 w3, ofBigEndian32 h0 h1 h2 h3, c, cs⟩
      else .error .invalidChannelCount := by
  simp only [decodeHeader, decodeHeaderItem, List.cons_append, if_pos hm]

theorem decodeHeader_of_bad_channels (hm : [m0, m1, m2, m3] = Config.magic) (hc : c ≠ 3 ∧ c ≠ 4) :
    decodeHeader ([m0, m1, m2, m3, w0, w1, w2, w3, h0, h1, h2, h3, c, cs] ++ rest) =
      .error .invalidChannelCount := by
  rw [decodeHeader_of_magic hm, (channelsLegal_eq_false_iff c).2 hc, if_neg Bool.false_ne_true]

theorem decodeHeader_of_legal (hm : [m0, m1, m2, m3] = Config.magic) (hc : ¬ (c ≠ 3 ∧ c ≠ 4)) :
    decodeHeader ([m0, m1, m2, m3, w0, w1, w2, w3, h0, h1, h2, h3, c, cs] ++ rest) =
      .ok ⟨ofBigEndian32 w0 w1 w2 w3, ofBigEndian32 h0 h1 h2 h3, c, cs⟩ := by
  rw [← channelsLegal_eq_false_iff, Bool.not_eq_false] at hc
  rw [decodeHeader_of_magic hm, if_pos hc]

end

/-- Settles O8: the three tests in R81's order, then the fields, each dimension by `ofBigEndian32_toNat`. -/
theorem decodeHeaderResult : Obligations.DecodeHeaderResult := by
  refine ⟨fun bs => decodeHeader_of_length_lt, ?_⟩
  intro m0 m1 m2 m3 w0 w1 w2 w3 h0 h1 h2 h3 c cs rest r
  split_ifs with hm hc
  · exact decodeHeader_of_bad_magic hm
  · exact decodeHeader_of_bad_channels (not_not.1 hm) hc
  · exact ⟨_, decodeHeader_of_legal (not_not.1 hm) hc, rfl, rfl, ofBigEndian32_toNat w0 w1 w2 w3,
      ofBigEndian32_toNat h0 h1 h2 h3⟩

end Sys2Proof.Machine
end

section
/-!
PROOFS. The hash and the rows of the operation selector (spec/41_index_cache_and_diff.md R90, R93 to R95,
spec/43_encoder.md R135).
-/

namespace Sys2Proof.Machine

/-- Settles O10: a slot is a number below 64, and `Fin.ofNat` is the remainder (R90). -/
theorem hashOfPixel : Obligations.HashOfPixel := by
  intro p
  exact Fin.val_ofNat 64 (p.r.toNat * 3 + p.g.toNat * 5 + p.b.toNat * 7 + p.a.toNat * 11)

-- The selector (R135), an equation per row ------------------------------------------------------------------------

section
variable {s : State} {p : Pixel}

theorem selectChunk_of_slot_holds (hslot : readSlot s (pixelHash p) = p) :
    selectChunk s p = .index (pixelHash p) := if_pos hslot

theorem selectChunk_of_diffFits (hslot : readSlot s (pixelHash p) ≠ p) (hdiff : diffFits p s.prev = true) :
    selectChunk s p =
      .diff (pixelDeltas p s.prev).dr (pixelDeltas p s.prev).dg (pixelDeltas p s.prev).db := by
  rw [selectChunk, if_neg hslot, if_pos hdiff]

theorem selectChunk_of_lumaFits (hslot : readSlot s (pixelHash p) ≠ p) (hdiff : ¬ diffFits p s.prev = true)
    (hluma : lumaFits p s.prev = true) :
    selectChunk s p =
      .luma (pixelDeltas p s.prev).dg ((pixelDeltas p s.prev).dr - (pixelDeltas p s.prev).dg)
        ((pixelDeltas p s.prev).db - (pixelDeltas p s.prev).dg) := by
  rw [selectChunk, if_neg hslot, if_neg hdiff, if_pos hluma]

theorem selectChunk_of_sameAlpha (hslot : readSlot s (pixelHash p) ≠ p) (hdiff : ¬ diffFits p s.prev = true)
    (hluma : ¬ lumaFits p s.prev = true) (halpha : p.a = s.prev.a) :
    selectChunk s p = .rgb p.r p.g p.b := by
  rw [selectChunk, if_neg hslot, if_neg hdiff, if_neg hluma, if_pos ((sameAlpha_iff p s.prev).2 halpha)]

/-- Only the first row's condition can hold of a Pixel whose alpha is not `prev`'s. -/
theorem selectChunk_of_alpha_ne (hslot : readSlot s (pixelHash p) ≠ p) (halpha : p.a ≠ s.prev.a) :
    selectChunk s p = .rgba p.r p.g p.b p.a := by
  have hdiff : ¬ diffFits p s.prev = true := fun h => halpha ((diffFits_iff p s.prev).1 h).1
  have hluma : ¬ lumaFits p s.prev = true := fun h => halpha ((lumaFits_iff p s.prev).1 h).1
  rw [selectChunk, if_neg hslot, if_neg hdiff, if_neg hluma, if_neg (mt (sameAlpha_iff p s.prev).1 halpha)]

end

/-- Settles O39: the three differences are those of the pixel-difference unit (R93), the two range conditions are
`diff_fits` and `luma_fits` (R94, R95), and then each branch is one row of R135. -/
theorem selectorPriority : Obligations.SelectorPriority := by
  intro s p
  refine ⟨(pixelDeltas p s.prev).dr, (pixelDeltas p s.prev).dg, (pixelDeltas p s.prev).db, rfl, rfl, rfl, ?_⟩
  simp only [← diffFits_iff, ← lumaFits_iff]
  split_ifs with hslot hdiff hluma halpha
  · exact selectChunk_of_slot_holds hslot
  · exact selectChunk_of_diffFits hslot hdiff
  · exact selectChunk_of_lumaFits hslot hdiff hluma
  · exact selectChunk_of_sameAlpha hslot hdiff hluma halpha
  · exact selectChunk_of_alpha_ne hslot halpha

end Sys2Proof.Machine
end

section
/-!
PROOFS. The chunks RGB, RGBA, INDEX and RUN in the decoder: their bytes, and what executing them commits
(spec/42_decoder.md R111 to R113, R116, R117).
-/

namespace Sys2Proof.Machine

-- What a chunk's bytes are read as (R110) -------------------------------------------------------------------------

/-- The byte of slot `slot` is read as INDEX (R56, R113). -/
theorem decodeChunk_index_byte (slot : Slot) (rest : List Byte) :
    decodeChunk (BitVec.ofNat 8 slot.val :: rest) = .ok (.index slot, rest) := by
  obtain ⟨hkind, hslot⟩ := index_byte slot
  simp only [decodeChunk, hkind, hslot]

/-- R66: a run length counts 1 to 62 Pixels. -/
theorem run_wf_iff (n : Nat) : (Instr.run n).wf = true ↔ 1 ≤ n ∧ n ≤ 62 := by
  simp only [Instr.wf, Bool.and_eq_true, decide_eq_true_eq]

/-- The byte of a run of `n` Pixels is read as RUN: the bias of 1 is taken off and put back (R60, R116), and a length of
at most 62 keeps clear of the two full-byte tags. -/
theorem decodeChunk_run_byte {n : Nat} (hpos : 1 ≤ n) (hle : n ≤ 62) (rest : List Byte) :
    decodeChunk (BitVec.ofNat 8 (0xC0 + (n - 1)) :: rest) = .ok (.run n, rest) := by
  obtain ⟨hkind, hfield⟩ := run_byte ⟨n - 1, by omega⟩
  simp only [decodeChunk, hkind, hfield, Nat.sub_add_cancel hpos]

-- What a chunk commits (R117) -------------------------------------------------------------------------------------

/-- A chunk executed by the decoder commits the Pixel it stands for, as often as it says, and does nothing else (R117). -/
theorem exec_chunk_commits {s : State} (hp : s.phase = .decRun) (i : Instr) (hc : i.isChunk = true) :
    ∃ t, exec i s = .next t ∧ Commits s t (chunkPixel s i) (chunkCount s i) :=
  ⟨_, exec_chunk_decRun i hp hc, commits_commitDecoded _ _ s⟩

/-- Settles O14: `FE` alone selects RGB, and its Pixel is the three raw bytes with `prev`'s alpha. -/
theorem rgbExecutes : Obligations.RgbExecutes := by
  intro s r g b rest hp
  exact ⟨rfl, exec_chunk_commits hp (.rgb r g b) rfl⟩

/-- Settles O15: `FF` alone selects RGBA, and its Pixel is the four raw bytes. -/
theorem rgbaExecutes : Obligations.RgbaExecutes := by
  intro s r g b a rest hp
  exact ⟨rfl, exec_chunk_commits hp (.rgba r g b a) rfl⟩

/-- Settles O16: the byte is read by `decodeChunk_index_byte`, and the commit is that of every chunk, so it writes the
own slot of the Pixel read. -/
theorem indexExecutes : Obligations.IndexExecutes := by
  intro s slot rest hp
  exact ⟨decodeChunk_index_byte slot rest, exec_chunk_commits hp (.index slot) rfl⟩

/-- Settles O19: the byte is read by `decodeChunk_run_byte`; the count is positive since both its bounds are, and
`chunkCount_le` keeps it inside `npix`. -/
theorem runExecutes : Obligations.RunExecutes := by
  intro s n rest hp hwf
  obtain ⟨hpos, hle⟩ := (run_wf_iff n).1 hwf
  obtain ⟨t, hexec, hcommits⟩ := exec_chunk_commits hp (.run n) rfl
  refine ⟨decodeChunk_run_byte hpos hle rest, t, hexec, hcommits, fun hneeded => ?_⟩
  obtain ⟨-, -, hcount, -⟩ := hcommits
  have hcut : 0 < chunkCount s (.run n) := lt_min hpos (Nat.sub_pos_of_lt hneeded)
  rw [hcount]
  exact ⟨Nat.lt_add_of_pos_right hcut, chunkCount_le s (.run n) hneeded⟩

end Sys2Proof.Machine
end

section
/-!
PROOFS. The encoder's step at a delivered Pixel: the run detector decides between run extend and a new Pixel
(spec/43_encoder.md R131 to R134, R140).
-/

namespace Sys2Proof.Machine

/-- R131, R132: of the cases of ENC's step, a delivered Pixel leaves the two that the run detector tells apart. -/
theorem encoderStep_of_pixel {s : State} {p : Pixel} (hp : s.phase = .encRun) (hn : s.pxCnt < s.npix)
    (hx : s.pixIn[s.pxCnt]? = some p) :
    encoderStep s = .next (if p = s.prev then afterRepeat s else afterNewPixel p s) := by
  obtain ⟨-, hnone, -⟩ | ⟨-, hprev, hstep⟩ | ⟨q, -, hq, hne, hstep⟩ | ⟨hdone, -, -⟩ | ⟨hdone, -, -⟩ :=
    encoderStep_cases hp
  case inl => cases hx.symm.trans hnone
  case inr.inl =>
    obtain rfl : p = s.prev := Option.some.inj (hx.symm.trans hprev)
    rw [hstep, if_pos rfl]
  case inr.inr.inl =>
    obtain rfl : p = q := Option.some.inj (hx.symm.trans hq)
    rw [hstep, if_neg hne]
  case inr.inr.inr.inl => exact absurd hn hdone.not_gt
  case inr.inr.inr.inr => exact absurd hn hdone.not_gt

/-- R133: what a repeated Pixel leaves, the flushed byte written out. -/
theorem afterRepeat_eq (s : State) :
    afterRepeat s =
      if s.run + 1 = 62 then { s with pxCnt := s.pxCnt + 1, run := 0, out := s.out ++ [0xFD] }
      else { s with pxCnt := s.pxCnt + 1, run := s.run + 1 } := rfl

/-- R134: the bytes a new Pixel appends to OUT, the pending run's byte written out. -/
theorem afterNewPixel_out (p : Pixel) (s : State) :
    (afterNewPixel p s).out =
      s.out ++ (if s.run = 0 then [] else [BitVec.ofNat 8 (0xC0 + (s.run - 1))]) ++ encode (selectChunk s p) :=
  (List.append_assoc _ _ _).symm

/-- R134, R140: a new Pixel changes OUT, `run`, `prev`, `px_cnt` and the cache, and nothing else. -/
theorem afterNewPixel_frame (p : Pixel) (s : State) :
    { afterNewPixel p s with out := s.out, run := s.run, prev := s.prev, pxCnt := s.pxCnt, cache := s.cache } = s := rfl

/-- Settles O37: the run detector sees a repeat, and `afterRepeat_eq` is the state it leaves. -/
theorem repeatExtendsRun : Obligations.RepeatExtendsRun := by
  intro s hr hp hd hn hx
  rw [step_encoder hr hp hd, encoderStep_of_pixel hp hn hx, if_pos rfl, afterRepeat_eq]

/-- Settles O38: the run detector sees a new Pixel, and its commit writes `prev` and the Pixel's own slot (R140). That the
pending run is at most 61 is not needed: the break emits the byte of any `run`. -/
theorem newPixelEmitsChunk : Obligations.NewPixelEmitsChunk := by
  intro s p hr hp hd hn hx hne _
  refine ⟨afterNewPixel p s, ?step, afterNewPixel_out p s, rfl, rfl, rfl, ?slots, afterNewPixel_frame p s⟩
  case step => rw [step_encoder hr hp hd, encoderStep_of_pixel hp hn hx, if_neg hne]
  case slots => exact readSlot_commitEncoded p _

end Sys2Proof.Machine
end

section
/-!
PROOFS. Where an ERR comes from: what each case of a step leaves in ERR (spec/60_exceptions.md R180, R186, R187, R189).
-/

namespace Sys2Proof.Machine

-- ERR after the operations that branch --------------------------------------------------------------

/-- R160: the acceptance of a command raises nothing; where it starts a call it clears ERR. -/
theorem startCall_err (c : Command) (s : State) : (startCall c s).err = s.err ∨ (startCall c s).err = none := by
  obtain ⟨-, -, h⟩ | ⟨-, h⟩ | ⟨-, h⟩ := startCall_cases c s
  · exact .inl (congrArg State.err h)
  · exact .inr (congrArg State.err h)
  · exact .inr (congrArg State.err h)

/-- R161: after HDR's step in an encode, ERR is one of that step's three errors or what it was. -/
theorem err_of_emitHeader {w h : BitVec 32} {c cs : Byte} {s : State} {e : ErrorKind}
    (he : (emitHeader w h c cs s).err = some e) :
    s.err = some e ∨ e = .invalidDimensions ∨ e = .invalidChannelCount ∨ e = .bufferSizeMismatch := by
  obtain ⟨-, hemit⟩ | ⟨e', n, hkind, hraise⟩ := emitHeader_cases w h c cs s
  · rw [hemit] at he
    exact .inl he
  · rw [hraise, raise_err] at he
    cases he
    exact .inr hkind

/-- R133: a repeated Pixel raises nothing. -/
@[simp] theorem afterRepeat_err (s : State) : (afterRepeat s).err = s.err := by
  unfold afterRepeat
  split <;> rfl

-- ERR after a step ---------------------------------------------------------------------------------------------------

/-- R189, for ERR of any value before the step: an error ERR names after a step stood there already, or the step raised
it, and then the running operation can end in it. -/
theorem err_of_step {s t : State} {e : ErrorKind} (h : step s = .next t) (he : t.err = some e) :
    s.err = some e ∨
    s.phase = .encRun ∧ (e = .invalidDimensions ∨ e = .invalidChannelCount ∨ e = .bufferSizeMismatch) ∨
    s.phase = .decRun ∧ (e = .truncatedInput ∨ e = .badMagic ∨ e = .invalidChannelCount) := by
  cases steps_of_step h with
  | takesReset => cases (takeReset_err s).symm.trans he
  | waits => exact .inl he
  | takesCommand c later =>
    obtain hkept | hcleared := startCall_err c { s with cmd := later }
    · exact .inl (hkept.symm.trans he)
    · cases hcleared.symm.trans he
  | emitsHeader _ hp => exact (err_of_emitHeader he).imp_right fun hkind => .inl ⟨hp, hkind⟩
  | repeatsPixel => exact .inl ((afterRepeat_err s).symm.trans he)
  | newPixel => exact .inl he
  | flushesRun => exact .inl he
  | emitsEnd => exact .inl he
  | acceptsHeader => exact .inl he
  | headerError e' _ hp _ hkind =>
    cases (raise_err e' s).symm.trans he
    exact .inr (.inr ⟨hp, hkind⟩)
  | chunk => exact .inl he
  | fetchError _ hp =>
    cases (raise_err .truncatedInput s).symm.trans he
    exact .inr (.inr ⟨hp, .inl rfl⟩)
  | completes => exact .inl he

/-- Settles O55: by `err_of_step` an error that was not there before is one of the five that some operation raises, and
neither `MalformedRun` (R186) nor `PixelCountMismatch` (R187) is among them. -/
theorem unreachableErrors : Obligations.UnreachableErrors := by
  intro s t e hunraised hstep he
  obtain hkept | ⟨-, hkind⟩ | ⟨-, hkind⟩ := err_of_step hstep he
  case inl => exact hkept
  case inr.inl => obtain rfl | rfl := hunraised <;> simp at hkind
  case inr.inr => obtain rfl | rfl := hunraised <;> simp at hkind

end Sys2Proof.Machine
end

section
/-!
PROOFS. Items to bytes and back: the encoder and the decoders are inverse (spec/30_encoding.md R51 to R61, R66).
-/

namespace Sys2Proof

-- Operands in range are fields less their bias (R61) ---------------------------------------------------------------

/-- A value in the range of a biased field is some field less the bias. -/
theorem exists_field_sub {n : Nat} {bias v : Int} (hlo : -bias ≤ v) (hhi : v + bias < n) :
    ∃ x : Fin n, v = (x.val : Int) - bias :=
  ⟨⟨(v + bias).toNat, by omega⟩, by simp only; omega⟩

theorem diff_wf_iff (dr dg db : Int) : (Instr.diff dr dg db).wf = true ↔
    (-2 ≤ dr ∧ dr ≤ 1) ∧ (-2 ≤ dg ∧ dg ≤ 1) ∧ (-2 ≤ db ∧ db ≤ 1) := by
  simp only [Instr.wf, Bool.and_eq_true, decide_eq_true_eq, and_assoc]

theorem luma_wf_iff (dg drDg dbDg : Int) : (Instr.luma dg drDg dbDg).wf = true ↔
    (-32 ≤ dg ∧ dg ≤ 31) ∧ (-8 ≤ drDg ∧ drDg ≤ 7) ∧ (-8 ≤ dbDg ∧ dbDg ≤ 7) := by
  simp only [Instr.wf, Bool.and_eq_true, decide_eq_true_eq, and_assoc]

/-- R58: a DIFF in range is given by its three 2-bit fields. -/
theorem exists_fields_of_diff_wf {dr dg db : Int} (hwf : (Instr.diff dr dg db).wf = true) :
    ∃ x y z : Fin 4, dr = (x.val : Int) - 2 ∧ dg = (y.val : Int) - 2 ∧ db = (z.val : Int) - 2 := by
  obtain ⟨hr, hg, hb⟩ := (diff_wf_iff dr dg db).1 hwf
  obtain ⟨x, hx⟩ := exists_field_sub (n := 4) (bias := 2) hr.1 (by omega)
  obtain ⟨y, hy⟩ := exists_field_sub (n := 4) (bias := 2) hg.1 (by omega)
  obtain ⟨z, hz⟩ := exists_field_sub (n := 4) (bias := 2) hb.1 (by omega)
  exact ⟨x, y, z, hx, hy, hz⟩

/-- R59: a LUMA in range is given by its 6-bit field and its two nibbles. -/
theorem exists_fields_of_luma_wf {dg drDg dbDg : Int} (hwf : (Instr.luma dg drDg dbDg).wf = true) :
    ∃ (x : Fin 64) (y z : Fin 16), dg = (x.val : Int) - 32 ∧ drDg = (y.val : Int) - 8 ∧ dbDg = (z.val : Int) - 8 := by
  obtain ⟨hg, hr, hb⟩ := (luma_wf_iff dg drDg dbDg).1 hwf
  obtain ⟨x, hx⟩ := exists_field_sub (n := 64) (bias := 32) hg.1 (by omega)
  obtain ⟨y, hy⟩ := exists_field_sub (n := 16) (bias := 8) hr.1 (by omega)
  obtain ⟨z, hz⟩ := exists_field_sub (n := 16) (bias := 8) hb.1 (by omega)
  exact ⟨x, y, z, hx, hy, hz⟩

theorem diff_wf_of_fields (x y z : Fin 4) :
    (Instr.diff ((x.val : Int) - 2) ((y.val : Int) - 2) ((z.val : Int) - 2)).wf = true := by
  rw [diff_wf_iff]; omega

theorem luma_wf_of_fields (x : Fin 64) (y z : Fin 16) :
    (Instr.luma ((x.val : Int) - 32) ((y.val : Int) - 8) ((z.val : Int) - 8)).wf = true := by
  rw [luma_wf_iff]; omega

-- The bytes of DIFF and LUMA by their fields ----------------------------------------------------------------------

/-- R58: the bias of 2 is added back, so the byte holds the fields themselves. -/
theorem encode_diff_fields (x y z : Fin 4) :
    encode (.diff ((x.val : Int) - 2) ((y.val : Int) - 2) ((z.val : Int) - 2)) =
      [BitVec.ofNat 8 (0x40 + x.val * 16 + y.val * 4 + z.val)] := by
  rw [encode, ← ofInt_ofNat]
  congr 2
  push_cast
  ring

/-- R59: the biases of 32 and 8 are added back. -/
theorem encode_luma_fields (x : Fin 64) (y z : Fin 16) :
    encode (.luma ((x.val : Int) - 32) ((y.val : Int) - 8) ((z.val : Int) - 8)) =
      [BitVec.ofNat 8 (0x80 + x.val), BitVec.ofNat 8 (y.val * 16 + z.val)] := by
  rw [encode, ← ofInt_ofNat, ← ofInt_ofNat]
  congr 3 <;> push_cast <;> ring

theorem decodeChunk_diff_byte (x y z : Fin 4) (rest : List Byte) :
    decodeChunk (BitVec.ofNat 8 (0x40 + x.val * 16 + y.val * 4 + z.val) :: rest) =
      .ok (.diff ((x.val : Int) - 2) ((y.val : Int) - 2) ((z.val : Int) - 2), rest) := by
  obtain ⟨hkind, hx, hy, hz⟩ := diff_byte x y z
  simp only [decodeChunk, hkind, biasedField, hx, hy, hz]

theorem decodeChunk_luma_bytes (x : Fin 64) (y z : Fin 16) (rest : List Byte) :
    decodeChunk (BitVec.ofNat 8 (0x80 + x.val) :: BitVec.ofNat 8 (y.val * 16 + z.val) :: rest) =
      .ok (.luma ((x.val : Int) - 32) ((y.val : Int) - 8) ((z.val : Int) - 8), rest) := by
  obtain ⟨hkind, hx⟩ := luma_byte x
  obtain ⟨hy, hz⟩ := nibbles_byte y z
  simp only [decodeChunk, hkind, biasedField, hx, hy, hz]

-- The framing items -----------------------------------------------------------------------------------------------

theorem decodeHeaderItem_encode (w h : BitVec 32) (c cs : Byte) (rest : List Byte) :
    decodeHeaderItem (encode (.header w h c cs) ++ rest) = .ok (.header w h c cs, rest) := by
  rw [encode_header_bytes]
  simp only [decodeHeaderItem, List.cons_append, List.nil_append, Config.magic, if_true, ofBigEndian32_bigEndian32]

theorem decodeEndItem_encode (rest : List Byte) :
    decodeEndItem (encode .endMarker ++ rest) = .ok (.endMarker, rest) := by
  have hlen : ¬ (Config.endMarker ++ rest).length < 8 := by simp [Config.endMarker]
  rw [encode, decodeEndItem, if_neg hlen]
  rfl

/-- Settles O1: kind by kind, the bytes of an item written by its fields are read back field by field. -/
theorem decodeOfEncodedItem : Obligations.DecodeOfEncodedItem := by
  intro i rest hwf
  cases i with
  | rgb r g b => rfl
  | rgba r g b a => rfl
  | index slot => exact Machine.decodeChunk_index_byte slot rest
  | diff dr dg db =>
    obtain ⟨x, y, z, rfl, rfl, rfl⟩ := exists_fields_of_diff_wf hwf
    rw [encode_diff_fields]
    exact decodeChunk_diff_byte x y z rest
  | luma dg drDg dbDg =>
    obtain ⟨x, y, z, rfl, rfl, rfl⟩ := exists_fields_of_luma_wf hwf
    rw [encode_luma_fields]
    exact decodeChunk_luma_bytes x y z rest
  | run n =>
    obtain ⟨hpos, hle⟩ := (Machine.run_wf_iff n).1 hwf
    exact Machine.decodeChunk_run_byte hpos hle rest
  | header w h c cs => exact decodeHeaderItem_encode w h c cs rest
  | endMarker => exact decodeEndItem_encode rest

-- From bytes to items ---------------------------------------------------------------------------------------------

/-- R51 to R60: an encoding has the length of its item. -/
theorem encode_length (i : Instr) : (encode i).length = i.length := by
  cases i <;> rfl

/-- What the chunk decoder reads is in range, and its bytes are the ones read (R53, R61). -/
theorem decodeChunk_ok_encode {bs rest : List Byte} {i : Instr} (hdec : decodeChunk bs = .ok (i, rest)) :
    i.wf = true ∧ encode i ++ rest = bs := by
  cases bs with
  | nil => simp [decodeChunk] at hdec
  | cons b tail =>
    simp only [decodeChunk] at hdec
    cases hkind : chunkKind b <;> simp only [hkind] at hdec
    case rgb =>
      split at hdec <;> cases hdec
      exact ⟨rfl, by rw [byte_of_rgb b hkind]; rfl⟩
    case rgba =>
      split at hdec <;> cases hdec
      exact ⟨rfl, by rw [byte_of_rgba b hkind]; rfl⟩
    case index =>
      cases hdec
      exact ⟨rfl, by rw [encode, byte_of_index b hkind]; rfl⟩
    case diff =>
      cases hdec
      have hbyte := encode_diff_fields ⟨_, byteField_lt b 4 2⟩ ⟨_, byteField_lt b 2 2⟩ ⟨_, byteField_lt b 0 2⟩
      rw [byte_of_diff b hkind] at hbyte
      exact ⟨diff_wf_of_fields ⟨_, byteField_lt b 4 2⟩ ⟨_, byteField_lt b 2 2⟩ ⟨_, byteField_lt b 0 2⟩,
        congrArg (· ++ rest) hbyte⟩
    case luma =>
      split at hdec <;> cases hdec
      rename_i b1
      have hbytes := encode_luma_fields ⟨_, byteField_lt b 0 6⟩ ⟨_, byteField_lt b1 4 4⟩ ⟨_, byteField_lt b1 0 4⟩
      rw [byte_of_luma b hkind, byte_of_nibbles b1] at hbytes
      exact ⟨luma_wf_of_fields ⟨_, byteField_lt b 0 6⟩ ⟨_, byteField_lt b1 4 4⟩ ⟨_, byteField_lt b1 0 4⟩,
        congrArg (· ++ rest) hbytes⟩
    case run =>
      cases hdec
      obtain ⟨hbyte, hfield⟩ := byte_of_run b hkind
      exact ⟨(Machine.run_wf_iff _).2 ⟨Nat.le_add_left 1 _, hfield⟩,
        by rw [encode, Nat.add_sub_cancel, hbyte]; rfl⟩

/-- Settles O2: the length is that of the encoding, which with the rest is the byte string. -/
theorem encodeOfDecodedChunk : Obligations.EncodeOfDecodedChunk := by
  intro bs rest i hdec
  obtain ⟨-, -, -, hchunk, -⟩ := decodeChunk_ok hdec
  obtain ⟨hwf, rfl⟩ := decodeChunk_ok_encode hdec
  exact ⟨hchunk, hwf, rfl, by rw [List.length_append, encode_length]⟩

/-- Every byte begins a chunk, so the only error of the chunk decoder is a cut (R63). -/
theorem decodeChunk_error {bs : List Byte} {e : DecodeError} (hdec : decodeChunk bs = .error e) : e = .truncated := by
  cases bs with
  | nil => cases hdec; rfl
  | cons b tail =>
    simp only [decodeChunk] at hdec
    cases hkind : chunkKind b <;> simp only [hkind] at hdec
    case rgb => split at hdec <;> cases hdec; rfl
    case rgba => split at hdec <;> cases hdec; rfl
    case index => cases hdec
    case diff => cases hdec
    case luma => split at hdec <;> cases hdec; rfl
    case run => cases hdec

/-- Settles O4: a chunk read has the length its first byte says, so a shorter byte string is rejected; that a long
enough one is read is `decodeChunk_isOk`. -/
theorem chunkRejectedOnlyIfTruncated : Obligations.ChunkRejectedOnlyIfTruncated := by
  refine ⟨fun e => ⟨decodeChunk_error, fun he => he ▸ rfl⟩, fun b rest => ⟨fun hshort => ?_, decodeChunk_isOk b rest⟩⟩
  cases hdec : decodeChunk (b :: rest) with
  | error e => rw [decodeChunk_error hdec]
  | ok read =>
    obtain ⟨b', tail, hbs, -, -, -, hlong⟩ := decodeChunk_ok hdec
    cases hbs
    exact absurd hlong (Nat.not_le.2 hshort)

/-- Settles O5: the decoders run on closed bytes. -/
theorem specWordsDecode : Obligations.SpecWordsDecode := by
  refine ⟨rfl, rfl, rfl, rfl, rfl, rfl, rfl⟩

end Sys2Proof
end

section
/-!
PROOFS. The two header functions are inverse (spec/40_header_codec.md R80, R81, R85).
-/

namespace Sys2Proof.Machine

theorem decodeHeader_eq_ok_iff (bs : List Byte) (f : HeaderFields) :
    decodeHeader bs = .ok f ↔
      (∃ rest, decodeHeaderItem bs = .ok (.header f.width f.height f.channels f.colorspace, rest)) ∧
        channelsLegal f.channels = true := by
  constructor
  · intro hdec
    unfold decodeHeader at hdec
    split at hdec
    · cases hdec
    · rename_i i rest hitem
      obtain ⟨w, h, c, cs, rfl, -⟩ := decodeHeaderItem_ok hitem
      simp only at hdec
      split at hdec
      · rename_i hc
        cases hdec
        exact ⟨⟨rest, hitem⟩, hc⟩
      · cases hdec
  · rintro ⟨⟨rest, hitem⟩, hc⟩
    simp only [decodeHeader, hitem, hc, if_true]

/-- Settles O9: both functions are the encoding of HEADER, forwards and backwards, behind tests that these headers
pass. -/
theorem headerFunctionsAreInverse : Obligations.HeaderFunctionsAreInverse := by
  constructor
  · intro w h c cs hw hh hc
    refine ⟨_, encodeHeader_of_legal (not_or.2 ⟨hw, hh⟩) (by tauto) cs, ?_⟩
    rw [decodeHeader_eq_ok_iff]
    exact ⟨⟨[], by simpa using decodeHeaderItem_encode w h c cs []⟩, (channelsLegal_iff c).2 hc⟩
  · intro bs f hlen hdec hw hh
    obtain ⟨⟨rest, hitem⟩, hc⟩ := (decodeHeader_eq_ok_iff bs f).1 hdec
    obtain ⟨w, h, c, cs, hi, hbs⟩ := decodeHeaderItem_ok hitem
    have hrest : rest = [] := by
      have := congrArg List.length hbs
      rw [List.length_append, encode_length, hlen] at this
      exact List.length_eq_zero_iff.1 (by simpa [Instr.length] using this)
    rw [encodeHeader_of_legal (not_or.2 ⟨hw, hh⟩) (by rw [channelsLegal_iff] at hc; tauto), hbs, hrest, List.append_nil]

end Sys2Proof.Machine
end

section
/-!
PROOFS. What every step leaves in each field, read off the cases of a step (spec/20_memory.md R31, R44,
spec/44_operations.md R160, R170, spec/70_reset_and_hazards.md R210).
-/

namespace Sys2Proof.Machine

-- The operations that branch --------------------------------------------------------------------------------------

/-- R133: a repeated Pixel changes OUT, `px_cnt` and `run`, and nothing else. -/
theorem afterRepeat_frame (s : State) :
    { afterRepeat s with out := s.out, pxCnt := s.pxCnt, run := s.run } = s := by
  unfold afterRepeat; split <;> rfl

@[simp] theorem afterRepeat_pxCnt (s : State) : (afterRepeat s).pxCnt = s.pxCnt + 1 := by
  unfold afterRepeat; split <;> rfl

@[simp] theorem afterRepeat_phase (s : State) : (afterRepeat s).phase = s.phase :=
  (congrArg State.phase (afterRepeat_frame s) :)

@[simp] theorem afterRepeat_cache (s : State) : (afterRepeat s).cache = s.cache :=
  (congrArg State.cache (afterRepeat_frame s) :)

@[simp] theorem afterRepeat_prev (s : State) : (afterRepeat s).prev = s.prev :=
  (congrArg State.prev (afterRepeat_frame s) :)

@[simp] theorem afterRepeat_hdrDone (s : State) : (afterRepeat s).hdrDone = s.hdrDone :=
  (congrArg State.hdrDone (afterRepeat_frame s) :)

/-- R53: the length of a chunk. -/
theorem chunk_length_cases {i : Instr} (hc : i.isChunk = true) :
    i.length = 1 ∨ i.length = 2 ∨ i.length = 4 ∨ i.length = 5 := by
  cases i <;> simp [Instr.isChunk, Instr.length] at hc ⊢

-- A step of a running call ----------------------------------------------------------------------------------------

/-- `t` holds what the host gave the call of `s`, and all that `s` had output and answered. -/
structure ContinuesCall (s t : State) : Prop where
  inMem : t.inMem = s.inMem
  pixIn : t.pixIn = s.pixIn
  cmd : t.cmd = s.cmd
  op : t.op = s.op
  len : t.len = s.len
  rst : t.rst = s.rst
  rsp : s.rsp <+: t.rsp
  out : s.out <+: t.out
  pixOut : s.pixOut <+: t.pixOut
  header : s.phase = .encRun → t.width = s.width ∧ t.height = s.height ∧ t.channels = s.channels ∧
    t.colorspace = s.colorspace

theorem ContinuesCall.refl (s : State) : ContinuesCall s s :=
  ⟨rfl, rfl, rfl, rfl, rfl, rfl, List.prefix_rfl, List.prefix_rfl, List.prefix_rfl, fun _ => ⟨rfl, rfl, rfl, rfl⟩⟩

/-- R133: a repeated Pixel changes `px_cnt` and `run`, and adds to OUT. -/
theorem continuesCall_afterRepeat (s : State) : ContinuesCall s (afterRepeat s) := by
  unfold afterRepeat
  split
  · exact { ContinuesCall.refl s with out := List.prefix_append _ _ }
  · exact { ContinuesCall.refl s with }

/-- A step of a running call continues it or ends it in an error (R170, R180). -/
theorem continuesCall_or_raises {s t : State} (hr : s.rst = false) (hrun : s.phase.running = true)
    (hstep : step s = .next t) : ContinuesCall s t ∨ ∃ e n, t = raise e { s with npix := n } := by
  cases steps_of_step hstep with
  | takesReset hr' => cases hr.symm.trans hr'
  | waits => exact .inl (.refl s)
  | takesCommand c later _ hn => cases hrun.symm.trans hn
  | emitsHeader _ hp =>
    obtain ⟨-, hemit⟩ | ⟨e, n, -, hraise⟩ := emitHeader_cases s.width s.height s.channels s.colorspace s
    · rw [hemit]
      exact .inl { ContinuesCall.refl s with out := List.prefix_append _ _ }
    · exact .inr ⟨e, n, hraise⟩
  | repeatsPixel => exact .inl (continuesCall_afterRepeat s)
  | newPixel p => exact .inl { ContinuesCall.refl s with out := List.prefix_append _ _ }
  | flushesRun => exact .inl { ContinuesCall.refl s with out := List.prefix_append _ _ }
  | emitsEnd =>
    exact .inl { ContinuesCall.refl s with out := List.prefix_append _ _, rsp := List.prefix_append _ _ }
  | acceptsHeader w h c cs _ hp =>
    exact .inl { ContinuesCall.refl s with header := fun henc => by cases hp.symm.trans henc }
  | headerError e => exact .inr ⟨e, s.npix, rfl⟩
  | chunk => exact .inl { ContinuesCall.refl s with pixOut := List.prefix_append _ _ }
  | fetchError => exact .inr ⟨.truncatedInput, s.npix, rfl⟩
  | completes => exact .inl { ContinuesCall.refl s with rsp := List.prefix_append _ _ }

/-- Settles O44: an error keeps the inputs, OP, LEN and the responses given, and a step without one keeps the rest. -/
theorem runningStepKeepsInputs : Obligations.RunningStepKeepsInputs := by
  intro s t hr hrun hstep
  obtain hcont | ⟨e, n, rfl⟩ := continuesCall_or_raises hr hrun hstep
  · exact ⟨hcont.inMem, hcont.pixIn, hcont.op, hcont.len, hcont.rst.trans hr, hcont.rsp,
      fun _ => ⟨hcont.out, hcont.pixOut⟩, fun henc _ => hcont.header henc⟩
  · exact ⟨rfl, rfl, rfl, rfl, hr, List.prefix_append _ _, fun hok => absurd rfl hok, fun _ hok => absurd rfl hok⟩

theorem running_step_keeps_cmd {s t : State} (hr : s.rst = false) (hrun : s.phase.running = true)
    (hstep : step s = .next t) : t.cmd = s.cmd := by
  obtain hcont | ⟨e, n, rfl⟩ := continuesCall_or_raises hr hrun hstep
  · exact hcont.cmd
  · rfl

-- Commands and reset ----------------------------------------------------------------------------------------------

/-- R23, R160: with no call running a waiting command is taken. -/
theorem step_of_command {s : State} {c : Command} {later : List Command} (hr : s.rst = false)
    (hn : s.phase.running = false) (hc : s.cmd = c :: later) :
    step s = .next (startCall c { s with cmd := later }) := by
  rw [step_host hr hn, hostStep, hc]

/-- R23: with no call running and no command the block waits. -/
theorem step_of_no_command {s : State} (hr : s.rst = false) (hn : s.phase.running = false) (hc : s.cmd = []) :
    step s = .next s := by
  rw [step_host hr hn, hostStep, hc, wait]

/-- The state a started call is in, before its first step (R160, R21). -/
def startedCall (running : Phase) (c : Command) (s : State) : State :=
  { initCall (loadCommand c s) with err := none, phase := running }

theorem startCall_encode {c : Command} (hop : c.op = 1) (s : State) : startCall c s = startedCall .encRun c s := by
  obtain ⟨h, -, -⟩ | ⟨-, h⟩ | ⟨h, -⟩ := startCall_cases c s
  · exact absurd hop h
  · exact h
  · cases hop.symm.trans h

theorem startCall_decode {c : Command} (hop : c.op = 2) (s : State) : startCall c s = startedCall .decRun c s := by
  obtain ⟨-, h, -⟩ | ⟨h, -⟩ | ⟨-, h⟩ := startCall_cases c s
  · exact absurd hop h
  · cases hop.symm.trans h
  · exact h

/-- A command with OP 1 or 2 starts its call; the two differ in PHASE alone (R160). -/
theorem startCall_of_op {c : Command} (hop : c.op = 1 ∨ c.op = 2) (s : State) :
    startCall c s = startedCall (if c.op = 1 then .encRun else .decRun) c s := by
  obtain hop | hop := hop
  · rw [startCall_encode hop, if_pos hop]
  · rw [startCall_decode hop, if_neg (by rw [hop]; decide)]

theorem startCall_nothing {c : Command} (hop : c.op = 0 ∨ c.op = 3) (s : State) : startCall c s = s := by
  obtain ⟨-, -, h⟩ | ⟨h, -⟩ | ⟨h, -⟩ := startCall_cases c s
  · exact h
  · rw [h] at hop; exact absurd hop (by decide)
  · rw [h] at hop; exact absurd hop (by decide)

/-- Settles O42: the host's move takes the command, and `initCall` and `loadCommand` are the values it leaves. -/
theorem commandStartsCall : Obligations.CommandStartsCall := by
  refine ⟨fun s c later hr hn hc hop => ?_, fun s t hr hrun => running_step_keeps_cmd hr hrun⟩
  refine ⟨_, step_of_command hr hn hc, ?_⟩
  rw [startCall_of_op hop]
  exact ⟨rfl, rfl, readSlot_clearedCache _ rfl, rfl, rfl, rfl, rfl, rfl, rfl, rfl, rfl, rfl, rfl, rfl, rfl, rfl, rfl,
    rfl, rfl⟩

/-- Settles O43: OP 0 and 3 leave the state that took the command. -/
theorem nothingStartsACallBut : Obligations.NothingStartsACallBut := by
  refine fun s hr hn => ⟨fun c later hc hop => ?_, step_of_no_command hr hn⟩
  rw [step_of_command hr hn hc, startCall_nothing hop]

/-- Settles O46: the reset is the first test of a step, and the state it leaves runs no call. -/
theorem resetRequestIsTaken : Obligations.ResetRequestIsTaken := by
  intro s hr
  exact ⟨_, step_reset hr, rfl, rfl, rfl, rfl, rfl, rfl, step_of_no_command rfl rfl⟩

/-- Settles O47: the code tables, and the reset state, which has no command. -/
theorem statusCodesAndResetState : Obligations.StatusCodesAndResetState :=
  ⟨⟨rfl, rfl, rfl, rfl, rfl⟩, ⟨rfl, rfl, rfl, rfl, rfl, rfl, rfl, rfl⟩, rfl, rfl, rfl, rfl,
    step_of_no_command rfl rfl rfl⟩

/-- Settles O57: the two states differ in nothing but what the call overwrites and the seven fields set aside. -/
theorem callsShareNothing : Obligations.CallsShareNothing := by
  intro s s' t t' c later later' hr hr' hn hn' hc hc' hop hstep hstep'
  rw [step_of_command hr hn hc, startCall_of_op hop] at hstep
  rw [step_of_command hr' hn' hc', startCall_of_op hop] at hstep'
  cases hstep
  cases hstep'
  simp only [startedCall, initCall, loadCommand, hr, hr']

-- Totality, the cursor, the errors --------------------------------------------------------------------------------

/-- Settles O48: every step is one of the cases of `Steps`, and each is a next state. -/
theorem everyStepHasANextState : Obligations.EveryStepHasANextState := by
  intro s
  obtain ⟨t, hstep, -⟩ := step_steps s
  exact ⟨t, hstep⟩

/-- Settles O45: of the decoder's cases only a wait and a chunk leave the call running. -/
theorem cursorMovesByChunkLength : Obligations.CursorMovesByChunkLength := by
  intro s t hr hp hd hstep hrun
  cases steps_of_step hstep with
  | takesReset hr' => cases hr.symm.trans hr'
  | waits => exact .inl rfl
  | takesCommand c later _ hn => rw [hp] at hn; cases hn
  | emitsHeader _ hp' => cases hp.symm.trans hp'
  | repeatsPixel _ hp' => cases hp.symm.trans hp'
  | newPixel p _ hp' => cases hp.symm.trans hp'
  | flushesRun _ hp' => cases hp.symm.trans hp'
  | emitsEnd _ hp' => cases hp.symm.trans hp'
  | acceptsHeader w h c cs _ _ hd' => cases hd.symm.trans hd'
  | headerError e _ _ hd' => cases hd.symm.trans hd'
  | chunk i n _ _ _ _ hc hi hl =>
    have hlength := chunk_length_cases hc
    refine .inr ⟨hl, ?_⟩
    simp only [commitDecoded_pc, advancePc_pc]
    omega
  | fetchError => cases hrun
  | completes => cases hrun

/-- Settles O56: by `err_of_step`, since ERR was 0 before. -/
theorem errorsByOperation : Obligations.ErrorsByOperation := by
  intro s t e _ hnone hstep he
  exact (err_of_step hstep he).resolve_left (by rw [hnone]; exact fun h => nomatch h)

end Sys2Proof.Machine
end

section
/-!
PROOFS. The invariants of a step (spec/10_state.md R14 to R19, spec/20_memory.md R30,
spec/41_index_cache_and_diff.md R98 to R100, spec/43_encoder.md R147).
-/

namespace Sys2Proof.Machine

/-- R161: HDR's step in an encode never enters DEC_RUN. -/
theorem emitHeader_phase (w h : BitVec 32) (c cs : Byte) (s : State) :
    (emitHeader w h c cs s).phase = s.phase ∨ (emitHeader w h c cs s).phase = .doneErr := by
  obtain ⟨-, hemit⟩ | ⟨e, n, -, hraise⟩ := emitHeader_cases w h c cs s
  · rw [hemit]; exact .inl rfl
  · rw [hraise]; exact .inr rfl

-- ERR and PHASE (R19, R170) ---------------------------------------------------------------------------------------

/-- A call that runs or has a result asks of the status only that ERR is 0. -/
theorem statusInvariant_iff {s : State} (hp : s.phase ≠ .doneErr) (hi : s.phase ≠ .idle) :
    StatusInvariant s ↔ s.err = none := by
  simp [StatusInvariant, hp, hi]

theorem statusInvariant_raise (e : ErrorKind) (s : State) : StatusInvariant (raise e s) := by
  simp [StatusInvariant]

/-- Whatever keeps ERR and does not leave the call in error keeps the status. -/
theorem statusInvariant_of_err_eq {s t : State} (hs : StatusInvariant s) (hrun : s.phase.running = true)
    (he : t.err = s.err) (hp : t.phase = s.phase ∨ t.phase = .doneOk) : StatusInvariant t := by
  have hne : s.phase ≠ .doneErr ∧ s.phase ≠ .idle := by
    constructor <;> (intro h; rw [h] at hrun; cases hrun)
  have hne' : t.phase ≠ .doneErr ∧ t.phase ≠ .idle := by
    obtain hp | hp := hp
    · rwa [hp]
    · rw [hp]; decide
  rw [statusInvariant_iff hne'.1 hne'.2, he]
  exact (statusInvariant_iff hne.1 hne.2).1 hs

theorem statusInvariant_startCall {s : State} (hs : StatusInvariant s) (c : Command) :
    StatusInvariant (startCall c s) := by
  obtain ⟨-, -, h⟩ | ⟨-, h⟩ | ⟨-, h⟩ := startCall_cases c s <;> rw [h]
  · exact hs
  · exact (statusInvariant_iff (by simp) (by simp)).2 rfl
  · exact (statusInvariant_iff (by simp) (by simp)).2 rfl

/-- Settles O49: reset and a start clear ERR, an error sets ERR and PHASE together and drops the outputs, and the other
cases keep ERR in a call that runs or completes. -/
theorem stepKeepsStatusInvariant : Obligations.StepKeepsStatusInvariant := by
  intro s t hs hstep
  have henc : s.phase = .encRun → s.phase.running = true := fun hp => (Phase.running_iff _).2 (.inl hp)
  have hdec : s.phase = .decRun → s.phase.running = true := fun hp => (Phase.running_iff _).2 (.inr hp)
  cases steps_of_step hstep with
  | takesReset => simp [StatusInvariant]
  | waits => exact hs
  | takesCommand c later => exact statusInvariant_startCall (s := { s with cmd := later }) hs c
  | emitsHeader _ hp =>
    obtain ⟨-, hemit⟩ | ⟨e, n, -, hraise⟩ := emitHeader_cases s.width s.height s.channels s.colorspace s
    · rw [hemit]
      exact statusInvariant_of_err_eq hs (henc hp) rfl (.inl rfl)
    · rw [hraise]
      exact statusInvariant_raise e _
  | repeatsPixel _ hp =>
    exact statusInvariant_of_err_eq hs (henc hp) (afterRepeat_err s) (.inl (afterRepeat_phase s))
  | newPixel p _ hp => exact statusInvariant_of_err_eq hs (henc hp) rfl (.inl rfl)
  | flushesRun _ hp => exact statusInvariant_of_err_eq hs (henc hp) rfl (.inl rfl)
  | emitsEnd _ hp => exact statusInvariant_of_err_eq hs (henc hp) rfl (.inr rfl)
  | acceptsHeader w h c cs _ hp => exact statusInvariant_of_err_eq hs (hdec hp) rfl (.inl rfl)
  | headerError e => exact statusInvariant_raise e s
  | chunk i n _ hp => exact statusInvariant_of_err_eq hs (hdec hp) rfl (.inl rfl)
  | fetchError => exact statusInvariant_raise _ s
  | completes _ hp => exact statusInvariant_of_err_eq hs (hdec hp) rfl (.inr rfl)

-- The cache and `prev` (R98 to R100) ------------------------------------------------------------------------------

theorem cacheInvariant_of_not_running {s : State} (hn : s.phase.running = false) : CacheInvariant s :=
  fun hrun => by cases hn.symm.trans hrun

theorem slotInvariant_of_untouched {s : State} (hu : Untouched s) : SlotInvariant s :=
  fun i => .inl (readSlot_clearedCache s hu.1 i)

theorem cacheInvariant_of_untouched {s : State} (hu : Untouched s) (hcnt : s.pxCnt = 0) : CacheInvariant s :=
  fun _ => ⟨fun _ => hu, slotInvariant_of_untouched hu, .inl ⟨hu, fun _ => hcnt⟩⟩

/-- The invariant speaks of the cache, `prev`, PHASE and the turn, and of `px_cnt` in a decode alone. -/
theorem cacheInvariant_congr {s t : State} (hs : CacheInvariant s) (hcache : t.cache = s.cache)
    (hprev : t.prev = s.prev) (hphase : t.phase = s.phase) (hturn : t.hdrDone = false → s.hdrDone = false)
    (hcnt : s.phase = .decRun → t.pxCnt = s.pxCnt) : CacheInvariant t := by
  intro hrun
  have hread : ∀ i, readSlot t i = readSlot s i := fun i => by rw [readSlot, hcache, readSlot]
  have huntouched : Untouched s → Untouched t := fun hu => ⟨hcache.trans hu.1, hprev.trans hu.2⟩
  obtain ⟨hfirst, hslots, hlast⟩ := hs (hphase ▸ hrun)
  refine ⟨fun h => huntouched (hfirst (hturn h)), fun i => hread i ▸ hslots i, ?_⟩
  obtain ⟨hu, hzero⟩ | hcached := hlast
  · exact .inl ⟨huntouched hu, fun hp => (hcnt (hphase ▸ hp)).trans (hzero (hphase ▸ hp))⟩
  · refine .inr ?_
    rw [PrevCached, hread, hprev]
    exact hcached

/-- A commit, of either pipeline, writes the new `prev` to its own slot (R99, R100). -/
theorem cacheInvariant_of_commit {s t : State} {p : Pixel} (hs : SlotInvariant s)
    (hslots : ∀ i : Slot, readSlot t i = if i = pixelHash p then p else readSlot s i) (hprev : t.prev = p)
    (hturn : t.hdrDone = true) : CacheInvariant t := by
  refine fun _ => ⟨fun h => (by cases hturn.symm.trans h), fun i => ?_, .inr ?_⟩
  · rw [hslots]
    split
    · next hi => exact .inr hi.symm
    · exact hs i
  · rw [PrevCached, hprev, hslots, if_pos rfl]

theorem cacheInvariant_startCall {s : State} (hn : s.phase.running = false) (c : Command) :
    CacheInvariant (startCall c s) := by
  obtain ⟨-, -, h⟩ | ⟨-, h⟩ | ⟨-, h⟩ := startCall_cases c s <;> rw [h]
  · exact cacheInvariant_of_not_running hn
  · exact cacheInvariant_of_untouched ⟨rfl, rfl⟩ rfl
  · exact cacheInvariant_of_untouched ⟨rfl, rfl⟩ rfl

theorem slotInvariant_of_cacheInvariant {s : State} (hs : CacheInvariant s) (hrun : s.phase.running = true) :
    SlotInvariant s := by
  obtain ⟨-, hslots, -⟩ := hs hrun
  exact hslots

/-- Settles O50: a call starts untouched, a new Pixel and an executed chunk are commits, and the other steps of a call
that goes on leave the cache and `prev` alone. -/
theorem stepKeepsCacheInvariant : Obligations.StepKeepsCacheInvariant := by
  intro s t hs hstep
  cases steps_of_step hstep with
  | takesReset => exact cacheInvariant_of_not_running rfl
  | waits => exact hs
  | takesCommand c later _ hn => exact cacheInvariant_startCall (s := { s with cmd := later }) hn c
  | emitsHeader _ hp =>
    obtain ⟨-, hemit⟩ | ⟨e, n, -, hraise⟩ := emitHeader_cases s.width s.height s.channels s.colorspace s
    · rw [hemit]
      exact cacheInvariant_congr hs rfl rfl rfl (fun h => by cases h) fun _ => rfl
    · rw [hraise]
      exact cacheInvariant_of_not_running rfl
  | repeatsPixel _ hp hd =>
    exact cacheInvariant_congr hs (afterRepeat_cache s) (afterRepeat_prev s) (afterRepeat_phase s)
      (fun h => (afterRepeat_hdrDone s).symm.trans h) fun hdec => by cases hp.symm.trans hdec
  | newPixel p _ hp hd =>
    exact cacheInvariant_of_commit (slotInvariant_of_cacheInvariant hs ((Phase.running_iff _).2 (.inl hp)))
      (readSlot_commitEncoded p _) rfl hd
  | flushesRun _ hp hd => exact cacheInvariant_congr hs rfl rfl rfl id fun _ => rfl
  | emitsEnd => exact cacheInvariant_of_not_running rfl
  | acceptsHeader w h c cs => exact cacheInvariant_congr hs rfl rfl rfl (fun h => by cases h) fun _ => rfl
  | headerError e => exact cacheInvariant_of_not_running rfl
  | chunk i n _ hp hd =>
    exact cacheInvariant_of_commit (slotInvariant_of_cacheInvariant hs ((Phase.running_iff _).2 (.inr hp)))
      (readSlot_commitDecoded _ _ (advancePc n s)) rfl hd
  | fetchError => exact cacheInvariant_of_not_running rfl
  | completes => exact cacheInvariant_of_not_running rfl

-- The decoder's counters (R15, R16, R117) -------------------------------------------------------------------------

theorem decoderCounters_of_phase_ne {s : State} (hp : s.phase ≠ .decRun) : DecoderCounters s := fun h => absurd h hp

theorem decoderCounters_startCall {s : State} (hn : s.phase.running = false) (c : Command) :
    DecoderCounters (startCall c s) := by
  obtain ⟨-, -, h⟩ | ⟨-, h⟩ | ⟨-, h⟩ := startCall_cases c s <;> rw [h]
  · exact decoderCounters_of_phase_ne fun hp => by rw [hp] at hn; cases hn
  · exact decoderCounters_of_phase_ne (by simp)
  · exact fun _ => ⟨rfl, rfl, fun _ => rfl, fun h => by cases h⟩

/-- R117, R116: a chunk outputs as many Pixels as it counts, at most those needed, and `pc` moves inside LEN. -/
theorem decoderCounters_chunk {s : State} (hs : DecoderCounters s) (hp : s.phase = .decRun) (hd : s.hdrDone = true)
    (hn : s.pxCnt < s.npix) (i : Instr) {n : Nat} (hl : s.pc + n ≤ s.len.toNat) :
    DecoderCounters (commitDecoded (chunkPixel s i) (chunkCount s i) (advancePc n s)) := by
  obtain ⟨hpix, hout, -, hcounts⟩ := hs hp
  obtain ⟨-, hnpix, hpc, -⟩ := hcounts hd
  refine fun _ => ⟨?_, hout, fun h => (by cases hd.symm.trans h), fun _ => ⟨chunkCount_le s i hn, hnpix, ?_, hl⟩⟩
  · rw [commitDecoded_pixOut, List.length_append, List.length_replicate, commitDecoded_pxCnt]
    exact congrArg (· + _) hpix
  · exact hpc.trans (Nat.le_add_right _ _)

/-- Settles O51: the header sets `npix` and `pc`, a chunk keeps the counters by `decoderCounters_chunk`, and no other
case leaves a decode running in another state. -/
theorem stepKeepsDecoderCounters : Obligations.StepKeepsDecoderCounters := by
  intro s t hs hstep
  cases steps_of_step hstep with
  | takesReset => exact decoderCounters_of_phase_ne (by simp)
  | waits => exact hs
  | takesCommand c later _ hn => exact decoderCounters_startCall (s := { s with cmd := later }) hn c
  | emitsHeader _ hp =>
    refine decoderCounters_of_phase_ne fun h => ?_
    obtain hkept | herr := emitHeader_phase s.width s.height s.channels s.colorspace s
    · cases hp.symm.trans (hkept.symm.trans h)
    · cases herr.symm.trans h
  | repeatsPixel _ hp => exact decoderCounters_of_phase_ne (by rw [afterRepeat_phase, hp]; decide)
  | newPixel p _ hp => exact decoderCounters_of_phase_ne fun h => by cases hp.symm.trans h
  | flushesRun _ hp => exact decoderCounters_of_phase_ne fun h => by cases hp.symm.trans h
  | emitsEnd => exact decoderCounters_of_phase_ne (by simp [emitted, completeEncode])
  | acceptsHeader w h c cs _ hp hd hl =>
    obtain ⟨hpix, hout, hzero, -⟩ := hs hp
    exact fun _ => ⟨hpix, hout, fun h => (by cases h), fun _ => ⟨(hzero hd).trans_le (Nat.zero_le _), rfl, le_rfl, hl⟩⟩
  | headerError e => exact decoderCounters_of_phase_ne (by simp)
  | chunk i n _ hp hd hn _ _ hl => exact decoderCounters_chunk hs hp hd hn i hl
  | fetchError => exact decoderCounters_of_phase_ne (by simp)
  | completes => exact decoderCounters_of_phase_ne (by simp [completeDecode])

-- The encoder's counters (R14, R15, R147) -------------------------------------------------------------------------

theorem encoderCounters_of_phase_ne {s : State} (hp : s.phase ≠ .encRun) : EncoderCounters s := fun h => absurd h hp

theorem encoderCounters_startCall {s : State} (hn : s.phase.running = false) (c : Command) :
    EncoderCounters (startCall c s) := by
  obtain ⟨-, -, h⟩ | ⟨-, h⟩ | ⟨-, h⟩ := startCall_cases c s <;> rw [h]
  · exact encoderCounters_of_phase_ne fun hp => by rw [hp] at hn; cases hn
  · exact fun _ => ⟨rfl, le_rfl, Nat.zero_le _, fun _ => ⟨rfl, rfl⟩, fun h => by cases h⟩
  · exact encoderCounters_of_phase_ne (by simp)

/-- R162: the header is 14 bytes, and no Pixel has been consumed yet. -/
theorem encoderCounters_emitHeader {s : State} (hs : EncoderCounters s) (hp : s.phase = .encRun)
    (hd : s.hdrDone = false) : EncoderCounters (emitHeader s.width s.height s.channels s.colorspace s) := by
  obtain ⟨hlen, hemit⟩ | ⟨e, n, -, hraise⟩ := emitHeader_cases s.width s.height s.channels s.colorspace s
  · obtain ⟨hpix, hrun, hrun61, hstart, -⟩ := hs hp
    obtain ⟨hcnt, hout⟩ := hstart hd
    have hrun0 : s.run = 0 := Nat.le_zero.1 (hcnt ▸ hrun)
    rw [hemit]
    refine fun _ => ⟨hpix, hrun, hrun61, fun h => (by cases h), fun _ => ⟨?_, rfl, hlen.symm, ?_, ?_⟩⟩
    · exact hcnt.trans_le (Nat.zero_le _)
    · simp [encode_length, Instr.length]
    · simp [encode_length, Instr.length, hrun0, hout]
  · rw [hraise]
    exact encoderCounters_of_phase_ne (by simp)

/-- R133: a repeat adds at most the flushed byte, which the bound has set aside. -/
theorem encoderCounters_afterRepeat {s : State} (hs : EncoderCounters s) (hp : s.phase = .encRun)
    (hd : s.hdrDone = true) (hn : s.pxCnt < s.npix) : EncoderCounters (afterRepeat s) := by
  obtain ⟨hpix, hrun, hrun61, -, hcounts⟩ := hs hp
  obtain ⟨-, hnpix, hlen, hhdr, hsize⟩ := hcounts hd
  unfold afterRepeat
  split
  · next hmax =>
    refine fun _ => ⟨hpix, Nat.zero_le _, Nat.zero_le _, fun h => (by cases hd.symm.trans h), fun _ =>
      ⟨hn, hnpix, hlen, ?_, ?_⟩⟩
    · simp only [emit_out, List.length_append]; omega
    · rw [if_neg (by omega)] at hsize
      simp only [emit_out, List.length_append, encode_length, Instr.length, if_true]; omega
  · next hmax =>
    refine fun _ => ⟨hpix, Nat.succ_le_succ hrun, by simp only; omega, fun h => (by cases hd.symm.trans h), fun _ =>
      ⟨hn, hnpix, hlen, hhdr, ?_⟩⟩
    simp only [Nat.succ_ne_zero, if_false]
    omega

theorem brokenRun_length (s : State) : (brokenRun s).length = if s.run = 0 then 0 else 1 := by
  unfold brokenRun; split <;> rfl

/-- R53: a chunk has at most 5 bytes. -/
theorem encode_chunk_length_le {i : Instr} (hc : i.isChunk = true) : (encode i).length ≤ 5 := by
  rw [encode_length]
  have := chunk_length_cases hc
  omega

/-- R134: a new Pixel adds the pending run's byte, which the bound has set aside, and at most 5 more. -/
theorem encoderCounters_afterNewPixel {s : State} (hs : EncoderCounters s) (hp : s.phase = .encRun)
    (hd : s.hdrDone = true) (hn : s.pxCnt < s.npix) (p : Pixel) : EncoderCounters (afterNewPixel p s) := by
  obtain ⟨hpix, -, -, -, hcounts⟩ := hs hp
  obtain ⟨-, hnpix, hlen, hhdr, hsize⟩ := hcounts hd
  have hchunk := encode_chunk_length_le (selectChunk_isChunk s p).1
  refine fun _ => ⟨hpix, Nat.zero_le _, Nat.zero_le _, fun h => (by cases hd.symm.trans h), fun _ =>
    ⟨hn, hnpix, hlen, ?_, ?_⟩⟩
  · simp only [afterNewPixel, commitEncoded_out, emit_out, List.length_append]; omega
  · simp only [afterNewPixel, commitEncoded_out, commitEncoded_run, commitEncoded_pxCnt, emit_out, List.length_append,
      brokenRun_length, if_true]
    omega

/-- R143: the last run adds the byte the bound has set aside. -/
theorem encoderCounters_flush {s : State} (hs : EncoderCounters s) (hp : s.phase = .encRun) (hd : s.hdrDone = true)
    (h0 : 0 < s.run) : EncoderCounters (emitted (.run s.run) s) := by
  obtain ⟨hpix, -, -, -, hcounts⟩ := hs hp
  obtain ⟨hcnt, hnpix, hlen, hhdr, hsize⟩ := hcounts hd
  rw [if_neg h0.ne'] at hsize
  refine fun _ => ⟨hpix, Nat.zero_le _, Nat.zero_le _, fun h => (by cases hd.symm.trans h), fun _ =>
    ⟨hcnt, hnpix, hlen, ?_, ?_⟩⟩
  · simp only [emitted, emit_out, List.length_append]; omega
  · simp only [emitted, emit_out, List.length_append, encode_length, Instr.length, if_true]; exact hsize

/-- Settles O52: each of the encoder's cases by its lemma above; no other case leaves an encode running in another
state. -/
theorem stepKeepsEncoderCounters : Obligations.StepKeepsEncoderCounters := by
  intro s t hs hstep
  cases steps_of_step hstep with
  | takesReset => exact encoderCounters_of_phase_ne (by simp)
  | waits => exact hs
  | takesCommand c later _ hn => exact encoderCounters_startCall (s := { s with cmd := later }) hn c
  | emitsHeader _ hp hd => exact encoderCounters_emitHeader hs hp hd
  | repeatsPixel _ hp hd hn => exact encoderCounters_afterRepeat hs hp hd hn
  | newPixel p _ hp hd hn => exact encoderCounters_afterNewPixel hs hp hd hn p
  | flushesRun _ hp hd _ h0 => exact encoderCounters_flush hs hp hd h0
  | emitsEnd => exact encoderCounters_of_phase_ne (by simp [emitted, completeEncode])
  | acceptsHeader w h c cs _ hp => exact encoderCounters_of_phase_ne fun henc => by cases hp.symm.trans henc
  | headerError e => exact encoderCounters_of_phase_ne (by simp)
  | chunk i n _ hp => exact encoderCounters_of_phase_ne fun henc => by cases hp.symm.trans henc
  | fetchError => exact encoderCounters_of_phase_ne (by simp)
  | completes => exact encoderCounters_of_phase_ne (by simp [completeDecode])

-- The byte memories (log 2) ---------------------------------------------------------------------------------------

theorem memoriesCanonical_congr {s t : State} (hs : MemoriesCanonical s) (hin : t.inMem = s.inMem)
    (hcmd : t.cmd = s.cmd) : MemoriesCanonical t := by
  rwa [MemoriesCanonical, hin, hcmd]

/-- R30: the call's IN is the bytes of the command it was started by. -/
theorem memoriesCanonical_startCall {s : State} {c : Command} {later : List Command} (hs : MemoriesCanonical s)
    (hc : s.cmd = c :: later) : MemoriesCanonical (startCall c { s with cmd := later }) := by
  obtain ⟨hin, hcmd⟩ := hs
  rw [hc, List.forall_mem_cons] at hcmd
  obtain ⟨hbytes, hlater⟩ := hcmd
  obtain ⟨-, -, h⟩ | ⟨-, h⟩ | ⟨-, h⟩ := startCall_cases c { s with cmd := later } <;> rw [h]
  · exact ⟨hin, hlater⟩
  · exact ⟨hbytes, hlater⟩
  · exact ⟨hbytes, hlater⟩

/-- Settles O53: the block never writes IN (R44), so the only other memory it takes up is a command's. -/
theorem stepKeepsMemoriesCanonical : Obligations.StepKeepsMemoriesCanonical := by
  intro s t hs hstep
  cases hr : s.rst with
  | true =>
    cases (step_reset hr).symm.trans hstep
    exact hs
  | false =>
    cases hrun : s.phase.running with
    | true =>
      obtain hcont | ⟨e, n, rfl⟩ := continuesCall_or_raises hr hrun hstep
      · exact memoriesCanonical_congr hs hcont.inMem hcont.cmd
      · exact hs
    | false =>
      rw [step_host hr hrun] at hstep
      obtain ⟨-, hwait⟩ | ⟨c, later, hc, hstart⟩ := hostStep_cases s
      · cases hwait.symm.trans hstep
        exact hs
      · cases hstart.symm.trans hstep
        exact memoriesCanonical_startCall hs hc

/-- Settles O54: at reset no call runs and nothing is issued. -/
theorem invariantsHoldAtReset : Obligations.InvariantsHoldAtReset :=
  ⟨⟨by decide, fun _ => ⟨rfl, rfl⟩⟩, cacheInvariant_of_not_running rfl, decoderCounters_of_phase_ne (by decide),
    encoderCounters_of_phase_ne (by decide), rfl, fun c hc => by cases hc⟩

end Sys2Proof.Machine
end

section
/-!
PROOFS. The arithmetic of Pixels: cache ports, differences, widths (spec/41_index_cache_and_diff.md R90 to R97).
-/

namespace Sys2Proof.Machine

-- The cache ports (R91, R92) --------------------------------------------------------------------------------------

/-- Settles O11: the write is one `Vector.set`, at the slot of the Pixel. -/
theorem cacheWriteReadsBack : Obligations.CacheWriteReadsBack := by
  intro s p i
  simp only [readSlot, writeCache_cache, Fin.getElem_fin, Vector.getElem_set, Fin.ext_iff, eq_comm]

-- `s8` and `u8` (R7) ----------------------------------------------------------------------------------------------

/-- `s8` changes a value by a multiple of 256 only. -/
theorem s8_emod (x : Int) : s8 x % 256 = x % 256 := by
  unfold s8; split <;> omega

/-- R97: one channel, rebuilt. -/
theorem addDelta_channelDiff (x y : Byte) : addDelta y (channelDiff x y) = x := by
  apply BitVec.eq_of_toNat_eq
  have hsum := addDelta_toNat y (channelDiff x y)
  have hwrap := s8_emod (byteInt x - byteInt y)
  have hx := x.isLt
  simp only [channelDiff, byteInt] at hsum hwrap ⊢
  omega

/-- R96, R97: the deltas of a Pixel rebuild it, where alpha is `prev`'s. -/
theorem applyDeltas_pixelDeltas {p prev : Pixel} (halpha : p.a = prev.a) :
    applyDeltas prev (pixelDeltas p prev).dr (pixelDeltas p prev).dg (pixelDeltas p prev).db = p := by
  simp only [applyDeltas, pixelDeltas, addDelta_channelDiff, ← halpha]

/-- Settles O12: the first half is `addDelta_channelDiff` unfolded. -/
theorem deltasRebuildPixel : Obligations.DeltasRebuildPixel :=
  ⟨addDelta_channelDiff, fun _ _ => applyDeltas_pixelDeltas⟩

-- Widths (R90, R95) -----------------------------------------------------------------------------------------------

/-- R95: with `dg` in its 6-bit range and `d` a signed byte, `d - dg` lies within 160 of 0, so a wrap of it cannot land
in the 4-bit range. -/
theorem s8_sub_fits_iff {d dg : Int} (hd : -128 ≤ d ∧ d ≤ 127) (hdg : -32 ≤ dg ∧ dg ≤ 31) :
    (-8 ≤ s8 (d - dg) ∧ s8 (d - dg) ≤ 7) ↔ (-8 ≤ d - dg ∧ d - dg ≤ 7) := by
  unfold s8; split <;> omega

/-- Settles O13: the hash is a sum modulo 64, which needs the channels modulo 64 only; the two wraps of the LUMA test
are `s8_sub_fits_iff`. -/
theorem arithmeticWidthsMakeNoDifference : Obligations.ArithmeticWidthsMakeNoDifference := by
  constructor
  · intro p q hr hg hb ha
    rw [Fin.ext_iff, hashOfPixel, hashOfPixel]
    omega
  · intro p prev
    obtain ⟨hdr, -, hdb⟩ := pixelDeltas_range p prev
    rw [lumaFits_iff]
    refine and_congr_right fun _ => ⟨fun ⟨hdg, hr, hb⟩ => ?_, fun ⟨hlo, hhi, hr1, hr2, hb1, hb2⟩ => ?_⟩
    · obtain ⟨hr1, hr2⟩ := (s8_sub_fits_iff hdr hdg).2 hr
      obtain ⟨hb1, hb2⟩ := (s8_sub_fits_iff hdb hdg).2 hb
      exact ⟨hdg.1, hdg.2, hr1, hr2, hb1, hb2⟩
    · exact ⟨⟨hlo, hhi⟩, (s8_sub_fits_iff hdr ⟨hlo, hhi⟩).1 ⟨hr1, hr2⟩, (s8_sub_fits_iff hdb ⟨hlo, hhi⟩).1 ⟨hb1, hb2⟩⟩

end Sys2Proof.Machine
end

section
/-!
PROOFS. The items executed by the decoder and emitted by the encoder (spec/42_decoder.md R111 to R117,
spec/43_encoder.md R133 to R144, spec/44_operations.md R161 to R163).
-/

namespace Sys2Proof.Machine

-- Executed --------------------------------------------------------------------------------------------------------

/-- R96: what deltas applied to `prev` are, channel by channel. -/
theorem applyDeltas_channels (prev : Pixel) (dr dg db : Int) :
    ((applyDeltas prev dr dg db).r.toNat : Int) = (prev.r.toNat + dr) % 256 ∧
    ((applyDeltas prev dr dg db).g.toNat : Int) = (prev.g.toNat + dg) % 256 ∧
    ((applyDeltas prev dr dg db).b.toNat : Int) = (prev.b.toNat + db) % 256 ∧ (applyDeltas prev dr dg db).a = prev.a :=
  ⟨addDelta_toNat _ _, addDelta_toNat _ _, addDelta_toNat _ _, rfl⟩

/-- Settles O17: the byte is `decodeChunk_diff_byte`, the Pixel `prev` with the deltas applied. -/
theorem diffExecutes : Obligations.DiffExecutes := by
  refine ⟨decodeChunk_diff_byte, fun s dr dg db hp _ => ?_⟩
  obtain ⟨t, hexec, hcommits⟩ := exec_chunk_commits hp (.diff dr dg db) rfl
  exact ⟨t, _, hexec, hcommits, applyDeltas_channels s.prev dr dg db⟩

/-- Settles O18: the bytes are `decodeChunk_luma_bytes`, the Pixel `prev` with `dg` in all three deltas. -/
theorem lumaExecutes : Obligations.LumaExecutes := by
  refine ⟨decodeChunk_luma_bytes, fun s dg drDg dbDg hp _ => ?_⟩
  obtain ⟨t, hexec, hcommits⟩ := exec_chunk_commits hp (.luma dg drDg dbDg) rfl
  exact ⟨t, _, hexec, hcommits, applyDeltas_channels s.prev (dg + drDg) dg (dg + dbDg)⟩

/-- Settles O20: a chunk only commits, and a commit writes no other slot. -/
theorem chunkExecutionFrame : Obligations.ChunkExecutionFrame := by
  intro s t i hp hc hexec
  cases (exec_chunk_decRun i hp hc).symm.trans hexec
  obtain ⟨-, -, -, hslots, hframe⟩ := commits_commitDecoded (chunkPixel s i) (chunkCount s i) s
  exact ⟨hframe, fun slot hne => (hslots slot).trans (if_neg hne), List.prefix_append _ _, fun _ => rfl⟩

/-- Settles O25: a legal channel byte takes the accepting branch of `acceptHeader`. -/
theorem headerExecutes : Obligations.HeaderExecutes := by
  intro s w h c cs hp hc
  refine ⟨_, exec_header_decRun w h c cs hp, ?_⟩
  rw [acceptHeader, if_pos ((channelsLegal_iff c).2 hc)]
  exact ⟨rfl, rfl, rfl, rfl, rfl, rfl, rfl, rfl⟩

/-- Settles O26: any other channel byte takes the raising branch. -/
theorem headerWithBadChannels : Obligations.HeaderWithBadChannels := by
  intro s w h c cs hp hc
  refine ⟨_, exec_header_decRun w h c cs hp, ?_⟩
  rw [acceptHeader, (channelsLegal_eq_false_iff c).2 hc, if_neg Bool.false_ne_true]
  exact raise_endsInError _ s

/-- R166, log 13: the decoder does nothing with an END. -/
theorem exec_endMarker_decRun {s : State} (hp : s.phase = .decRun) : exec .endMarker s = .next s := by
  simp only [exec, execEndMarker, byPhase_decRun hp, id]

/-- R23, log 13: with no call running no item has an effect. -/
theorem exec_notRunning (i : Instr) {s : State} (hn : s.phase.running = false) : exec i s = .next s := by
  cases i <;> simp only [exec, execRgb, execRgba, execIndex, execDiff, execLuma, execRun, execHeader, execEndMarker,
    byPhase_notRunning hn]

/-- Settles O30: by `exec_endMarker_decRun` and `exec_notRunning`. -/
theorem itemsWithoutEffect : Obligations.ItemsWithoutEffect :=
  ⟨fun _ => exec_endMarker_decRun, fun _ i => exec_notRunning i⟩

-- Emitted ---------------------------------------------------------------------------------------------------------

/-- Settles O21: the encodings of RGB and RGBA are their tag byte and raw channels. -/
theorem literalChunksEmitted : Obligations.LiteralChunksEmitted := by
  intro s hp
  exact ⟨fun r g b => ⟨_, exec_encRun (.rgb r g b) hp, rfl⟩, fun r g b a => ⟨_, exec_encRun (.rgba r g b a) hp, rfl⟩⟩

/-- Settles O22: each byte is below 256, so it is the number its rule gives. -/
theorem taggedChunksEmitted : Obligations.TaggedChunksEmitted := by
  intro s hp
  refine ⟨fun slot => ⟨_, _, exec_encRun (.index slot) hp, rfl, ?_⟩, fun dr dg db hwf => ?_, fun dg drDg dbDg hwf => ?_⟩
  · rw [BitVec.toNat_ofNat]
    omega
  · rw [diff_wf_iff] at hwf
    refine ⟨_, _, exec_encRun (.diff dr dg db) hp, rfl, ?_⟩
    rw [BitVec.toNat_ofInt]
    omega
  · rw [luma_wf_iff] at hwf
    refine ⟨_, _, _, exec_encRun (.luma dg drDg dbDg) hp, rfl, ?_, ?_⟩
    · rw [BitVec.toNat_ofInt]
      omega
    · rw [BitVec.toNat_ofInt]
      omega

/-- Settles O23: a run of at most 62 keeps its byte below 256. -/
theorem runEmitted : Obligations.RunEmitted := by
  intro s n hp hwf
  rw [run_wf_iff] at hwf
  refine ⟨_, _, exec_encRun (.run n) hp, rfl, ?_, rfl⟩
  rw [BitVec.toNat_ofNat]
  omega

/-- Settles O24: only a RUN writes more than OUT. -/
theorem chunkEmissionFrame : Obligations.ChunkEmissionFrame := by
  intro s t i hp hc hexec
  cases (exec_encRun i hp).symm.trans hexec
  by_cases hrun : ∃ n, i = .run n
  · obtain ⟨n, rfl⟩ := hrun
    exact ⟨rfl, fun hne => absurd rfl (hne n), fun _ _ => rfl, rfl, fun _ => rfl⟩
  · have hne : ∀ n, i ≠ .run n := not_exists.1 hrun
    rw [emitted_chunk hc hne]
    exact ⟨rfl, fun _ => rfl, fun n hi => absurd hi (hne n), rfl, fun _ => rfl⟩

/-- R161, R162: HEADER emitted when every pre-check passes. -/
theorem emitHeader_of_legal {w h : BitVec 32} {c : Byte} (hdim : ¬ (w = 0 ∨ h = 0)) (hc : ¬ (c ≠ 3 ∧ c ≠ 4)) (cs : Byte)
    {s : State} (hlen : s.len.toNat = w.toNat * h.toNat) :
    emitHeader w h c cs s =
      { s with npix := w.toNat * h.toNat, out := s.out ++ encode (.header w h c cs), hdrDone := true } := by
  simp only [emitHeader, encodeHeader_of_legal hdim hc, if_pos hlen, emit]

/-- Settles O27: the branch of `emitHeader_of_legal`. -/
theorem headerEmitted : Obligations.HeaderEmitted := by
  intro s w h c cs hp hw hh hc hlen
  have hdim : ¬ (w = 0 ∨ h = 0) := not_or.2 ⟨hw, hh⟩
  have hchan : ¬ (c ≠ 3 ∧ c ≠ 4) := by tauto
  refine ⟨_, _, (exec_encRun _ hp).trans (congrArg _ (emitHeader_of_legal hdim hchan cs hlen)),
    encodeHeader_of_legal hdim hchan cs, encode_length _, rfl, rfl, rfl, rfl⟩

/-- Settles O28: the tests of R161 in their order; an error of `encode_header` comes before the buffer test. -/
theorem encodePreChecks : Obligations.EncodePreChecks := by
  intro s hr hp hd
  refine ⟨_, (step_headerEncode hr hp hd).trans (headerEncodeStep_eq hp), ?_⟩
  split_ifs with hdim hc hlen
  · rw [emitHeader, encodeHeader_of_zero_dimension hdim]
    exact raise_endsInError _ s
  · rw [emitHeader, encodeHeader_of_bad_channels hdim hc]
    exact raise_endsInError _ s
  · rw [emitHeader, encodeHeader_of_legal hdim hc]
    simp only [if_neg hlen]
    exact raise_endsInError _ { s with npix := _ }
  · exact ⟨_, encodeHeader_of_legal hdim hc _, encode_length _, emitHeader_of_legal hdim hc _ (not_not.1 hlen)⟩

/-- R19: OUT_LEN shows a length that 64 bits hold. -/
theorem outLenOf_toNat {n : Nat} (hn : n < 2 ^ 64) (draw : Nat) : (outLenOf n draw).toNat = n := by
  rw [outLenOf, if_pos hn, BitVec.toNat_ofNat, Nat.mod_eq_of_lt hn]

/-- Settles O29: the marker is appended before OUT is measured. -/
theorem endMarkerEmitted : Obligations.EndMarkerEmitted := by
  intro s hp
  exact ⟨_, _, exec_encRun .endMarker hp, rfl, rfl, fun hlen => outLenOf_toNat hlen _, rfl, rfl, rfl, rfl, rfl⟩

end Sys2Proof.Machine
end

section
/-!
PROOFS. The step of each agent, an equation per case (spec/40_header_codec.md R81, spec/42_decoder.md R106, R107,
spec/43_encoder.md R131, R143, R144).
-/

namespace Sys2Proof.Machine

-- Reading IN where a byte is withheld (R169) ----------------------------------------------------------------------

theorem memReadByte_of_withheld {s : State} {a : Nat} (ha : a < s.len.toNat) (hread : Memory.read s.inMem a = none) :
    memReadByte s a = .withheld := by
  rw [memReadByte, if_neg (by omega), hread]

/-- One byte that is not delivered withholds the whole read. -/
theorem Memory.readBytes_eq_none {m : Memory} {a n k : Nat} (hk : k < n) (hread : Memory.read m (a + k) = none) :
    Memory.readBytes m a n = none := by
  cases hbytes : Memory.readBytes m a n with
  | none => rfl
  | some bs =>
    obtain ⟨hlen, hall⟩ := (Memory.readBytes_eq_some_iff m a n bs).1 hbytes
    cases hread.symm.trans (hall k (hlen ▸ hk))

theorem memRead_of_withheld {s : State} {a n k : Nat} (ha : a + n ≤ s.len.toNat) (hk : k < n)
    (hread : Memory.read s.inMem (a + k) = none) : memRead s a n = .withheld := by
  rw [memRead, if_neg (by omega), Memory.readBytes_eq_none hk hread]

-- The chunk fetch (R106) ------------------------------------------------------------------------------------------

section
variable {s : State}

theorem fetchChunk_of_len_le (hlen : s.len.toNat ≤ s.pc) : fetchChunk s = .pastEnd := by
  simp only [fetchChunk, (memReadByte_eq_pastEnd_iff s s.pc).2 hlen]

theorem fetchChunk_of_cut {b : Byte} (hread : Memory.read s.inMem s.pc = some b) (hpc : s.pc < s.len.toNat)
    (hcut : s.len.toNat < s.pc + (chunkKind b).length) : fetchChunk s = .pastEnd := by
  have hpayload : memRead s (s.pc + 1) ((chunkKind b).length - 1) = .pastEnd :=
    (memRead_eq_pastEnd_iff s _ _).2 (by omega)
  simp only [fetchChunk, (memReadByte_eq_got_iff s s.pc b).2 ⟨hpc, hread⟩, hpayload]

theorem fetchChunk_of_withheld_payload {b : Byte} (hread : Memory.read s.inMem s.pc = some b) {k : Nat}
    (hinside : s.pc + (chunkKind b).length ≤ s.len.toNat) (hk : k < (chunkKind b).length)
    (hwithheld : Memory.read s.inMem (s.pc + k) = none) : fetchChunk s = .withheld := by
  cases k with
  | zero => cases hwithheld.symm.trans hread
  | succ k =>
    rw [show s.pc + (k + 1) = s.pc + 1 + k by omega] at hwithheld
    have hpayload : memRead s (s.pc + 1) ((chunkKind b).length - 1) = .withheld :=
      memRead_of_withheld (k := k) (by omega) (by omega) hwithheld
    simp only [fetchChunk, (memReadByte_eq_got_iff s s.pc b).2 ⟨by omega, hread⟩, hpayload]

theorem fetchChunk_of_withheld_first_byte (hpc : s.pc < s.len.toNat) (hread : Memory.read s.inMem s.pc = none) :
    fetchChunk s = .withheld := by
  simp only [fetchChunk, memReadByte_of_withheld hpc hread]

/-- The bytes of a whole chunk at `pc`, inside LEN and delivered, are what the fetch finds. -/
theorem fetchChunk_of_bytes {i : Instr} {bs : List Byte} (hinside : s.pc + bs.length ≤ s.len.toNat)
    (hread : Memory.readBytes s.inMem s.pc bs.length = some bs) (hdec : decodeChunk bs = .ok (i, [])) :
    fetchChunk s = .got bs := by
  obtain ⟨b, tail, rfl, -, hlen, -, -⟩ := decodeChunk_ok hdec
  obtain ⟨-, -, -, hbytes⟩ := encodeOfDecodedChunk _ _ i hdec
  exact (fetchChunk_eq_got_iff s _).2 ⟨b, tail, rfl, hbytes.trans hlen, hinside, hread⟩

end

-- DEC (R107, R120) ------------------------------------------------------------------------------------------------

section
variable {s : State}

theorem decoderStep_of_pastEnd (hn : s.pxCnt < s.npix) (hfetch : fetchChunk s = .pastEnd) :
    decoderStep s = .next (raise .truncatedInput s) := by
  simp only [decoderStep, if_pos hn, hfetch]

theorem decoderStep_of_withheld (hn : s.pxCnt < s.npix) (hfetch : fetchChunk s = .withheld) :
    decoderStep s = .next s := by
  simp only [decoderStep, if_pos hn, hfetch, wait]

theorem decoderStep_of_chunk {i : Instr} {bs rest : List Byte} (hn : s.pxCnt < s.npix) (hfetch : fetchChunk s = .got bs)
    (hdec : decodeChunk bs = .ok (i, rest)) : decoderStep s = exec i (advancePc bs.length s) := by
  simp only [decoderStep, if_pos hn, hfetch, decodeItem, hdec]

theorem decoderStep_of_done (hn : s.npix ≤ s.pxCnt) : decoderStep s = .next (completeDecode s) :=
  if_neg (Nat.not_lt.2 hn)

end

/-- Settles O31: the fetch finds the bytes, and the step decodes what the fetch found. -/
theorem stepRunsFetchedChunk : Obligations.StepRunsFetchedChunk := by
  intro s i bs hr hp hd hn hinside hread hdec
  rw [step_decoder hr hp hd, decoderStep_of_chunk hn (fetchChunk_of_bytes hinside hread hdec) hdec, advancePc]

/-- Settles O34: the fetch runs past LEN, at the first byte or in the payload. -/
theorem truncatedChunkRaises : Obligations.TruncatedChunkRaises := by
  intro s hr hp hd hn hcut
  have hfetch : fetchChunk s = .pastEnd := by
    obtain hlen | ⟨hpc, b, hread, hcut⟩ := hcut
    · exact fetchChunk_of_len_le hlen
    · exact fetchChunk_of_cut hread hpc hcut
  exact ⟨_, (step_decoder hr hp hd).trans (decoderStep_of_pastEnd hn hfetch), raise_endsInError _ s, rfl⟩

/-- Settles O36: `completeDecode` writes the three registers before it answers. -/
theorem decodeCompletes : Obligations.DecodeCompletes := by
  intro s hr hp hd hn hcnt hpc
  exact ⟨_, _, (step_decoder hr hp hd).trans (decoderStep_of_done hn), rfl, Nat.mod_eq_of_lt hcnt, Nat.mod_eq_of_lt hpc,
    rfl, rfl, rfl, rfl, rfl, rfl, rfl, rfl, rfl, rfl⟩

-- HDR in a decode (R81) -------------------------------------------------------------------------------------------

section
variable {s : State}

theorem headerDecodeStep_of_short (hlen : s.len.toNat < 14) : headerDecodeStep s = .next (raise .truncatedInput s) :=
  if_pos hlen

section
variable (hlen : Config.headerBytes ≤ s.len.toNat)
include hlen

theorem headerDecodeStep_of_withheld_magic {k : Nat} (hk : k < 4) (hread : Memory.read s.inMem k = none) :
    headerDecodeStep s = .next s := by
  have hfour : memRead s 0 4 = .withheld :=
    memRead_of_withheld (Nat.le_trans (by decide) hlen) hk (by rwa [Nat.zero_add])
  simp only [headerDecodeStep, if_neg (Nat.not_lt.2 hlen), hfour, wait]

/-- LEN allows 14 bytes, so the first four are read where they are delivered. -/
theorem memRead_first_four {m : List Byte} (hread : Memory.readBytes s.inMem 0 4 = some m) : memRead s 0 4 = .got m :=
  (memRead_eq_got_iff s 0 4 m).2 ⟨Nat.le_trans (by decide) hlen, hread⟩

theorem headerDecodeStep_of_bad_magic {m : List Byte} (hread : Memory.readBytes s.inMem 0 4 = some m)
    (hm : m ≠ Config.magic) : headerDecodeStep s = .next (raise .badMagic s) := by
  simp only [headerDecodeStep, if_neg (Nat.not_lt.2 hlen), memRead_first_four hlen hread, if_neg hm]

theorem headerDecodeStep_of_withheld_field {k : Nat} (hmagic : Memory.readBytes s.inMem 0 4 = some Config.magic)
    (hk : k < Config.headerBytes) (hread : Memory.read s.inMem k = none) : headerDecodeStep s = .next s := by
  have hall : memRead s 0 Config.headerBytes = .withheld :=
    memRead_of_withheld ((Nat.zero_add _).trans_le hlen) hk (by rwa [Nat.zero_add])
  simp only [headerDecodeStep, if_neg (Nat.not_lt.2 hlen), memRead_first_four hlen hmagic, if_true, hall, wait]

/-- The bytes of a HEADER begin with the magic, so both reads of HDR succeed on them. -/
theorem headerDecodeStep_of_item {i : Instr} {bs : List Byte}
    (hread : Memory.readBytes s.inMem 0 Config.headerBytes = some bs) (hitem : decodeHeaderItem bs = .ok (i, [])) :
    headerDecodeStep s = exec i s := by
  have hmagic : Memory.readBytes s.inMem 0 4 = some Config.magic := by
    obtain ⟨w, h, c, cs, rfl, rfl⟩ := decodeHeaderItem_ok hitem
    exact Memory.readBytes_part s.inMem 0 [] Config.magic (bigEndian32 w ++ bigEndian32 h ++ [c, cs]) hread
  have hall : memRead s 0 Config.headerBytes = .got bs :=
    (memRead_eq_got_iff s 0 _ bs).2 ⟨(Nat.zero_add _).trans_le hlen, hread⟩
  simp only [headerDecodeStep, if_neg (Nat.not_lt.2 hlen), memRead_first_four hlen hmagic, if_true, hall, decodeItem,
    hitem]

end
end

/-- Settles O32: `headerDecodeStep_of_item`, where it is HDR's turn. -/
theorem stepRunsHeader : Obligations.StepRunsHeader := by
  intro s i bs hr hp hd hlen hread hitem
  rw [step_headerDecode hr hp hd, headerDecodeStep_of_item hlen hread hitem]

/-- Settles O33: the length is tested before any byte is read, the magic before any field. -/
theorem headerStepErrors : Obligations.HeaderStepErrors := by
  intro s hr hp hd
  refine ⟨fun hlen => ⟨_, ?_, raise_endsInError _ s⟩, fun m hlen hread hm => ⟨_, ?_, raise_endsInError _ s⟩⟩
  · rw [step_headerDecode hr hp hd, headerDecodeStep_of_short hlen]
  · rw [step_headerDecode hr hp hd, headerDecodeStep_of_bad_magic hlen hread hm]

-- ENC (R131, R143, R144) ------------------------------------------------------------------------------------------

section
variable {s : State}

theorem encoderStep_of_no_pixel (hn : s.pxCnt < s.npix) (hx : s.pixIn[s.pxCnt]? = none) : encoderStep s = .next s := by
  simp only [encoderStep, if_pos hn, pixInAt, hx, wait]

theorem encoderStep_of_pending_run (hn : s.npix ≤ s.pxCnt) (h0 : 0 < s.run) : encoderStep s = exec (.run s.run) s := by
  rw [encoderStep, if_neg (Nat.not_lt.2 hn), if_pos h0]

theorem encoderStep_of_end (hn : s.npix ≤ s.pxCnt) (h0 : s.run = 0) : encoderStep s = exec .endMarker s := by
  rw [encoderStep, if_neg (Nat.not_lt.2 hn), if_neg (by omega)]

end

/-- Settles O41: after the last Pixel the encoder's two branches are told apart by `run`. -/
theorem encoderTerminates : Obligations.EncoderTerminates := by
  intro s hr hp hd hn
  rw [step_encoder hr hp hd]
  exact ⟨encoderStep_of_pending_run hn, encoderStep_of_end hn⟩

/-- Settles O35: each kind of item by the lemma of its agent; a withheld byte of a chunk is its first or one of its
payload. -/
theorem withheldItemWaits : Obligations.WithheldItemWaits := by
  intro s hr
  refine ⟨fun hp hd hn hbyte => ?_, fun hp hd hlen hbyte => ?_, fun hp hd hn hx => ?_⟩
  · have hfetch : fetchChunk s = .withheld := by
      obtain ⟨hpc, hread⟩ | ⟨b, hread, hinside, k, hk, hwithheld⟩ := hbyte
      · exact fetchChunk_of_withheld_first_byte hpc hread
      · exact fetchChunk_of_withheld_payload hread hinside hk hwithheld
    rw [step_decoder hr hp hd, decoderStep_of_withheld hn hfetch]
  · rw [step_headerDecode hr hp hd]
    obtain ⟨k, hk, hread⟩ | ⟨hmagic, k, hk, hread⟩ := hbyte
    · exact headerDecodeStep_of_withheld_magic hlen hk hread
    · exact headerDecodeStep_of_withheld_field hlen hmagic hk hread
  · rw [step_encoder hr hp hd, encoderStep_of_no_pixel hn hx]

end Sys2Proof.Machine
end

section
/-!
PROOFS. Neither pipeline reads the header registers (spec/43_encoder.md R146, spec/42_decoder.md R118,
spec/20_memory.md R35).
-/

namespace Sys2Proof.Machine

/-- The state with other values in the four header registers. -/
def withHeader (w h : BitVec 32) (c cs : Byte) (s : State) : State :=
  { s with width := w, height := h, channels := c, colorspace := cs }

section
variable {s t : State} (w h : BitVec 32) (c cs : Byte)

theorem fetchChunk_withHeader : fetchChunk (withHeader w h c cs s) = fetchChunk s := rfl

theorem exec_chunk_withHeader {i : Instr} (hp : s.phase = .decRun) (hc : i.isChunk = true)
    (hexec : exec i s = .next t) : exec i (withHeader w h c cs s) = .next (withHeader w h c cs t) := by
  cases (exec_chunk_decRun i hp hc).symm.trans hexec
  rw [exec_chunk_decRun i (s := withHeader w h c cs s) hp hc]
  cases i <;> rfl

/-- R35, R118: DEC, as long as the call goes on. -/
theorem decoderStep_withHeader (hp : s.phase = .decRun) (hstep : decoderStep s = .next t)
    (hrun : t.phase.running = true) :
    decoderStep (withHeader w h c cs s) = .next (withHeader w h c cs t) := by
  by_cases hn : s.pxCnt < s.npix
  · have hfetch' := fetchChunk_withHeader (s := s) w h c cs
    cases hfetch : fetchChunk s with
    | pastEnd =>
      cases (decoderStep_of_pastEnd hn hfetch).symm.trans hstep
      cases hrun
    | withheld =>
      cases (decoderStep_of_withheld hn hfetch).symm.trans hstep
      exact decoderStep_of_withheld hn (hfetch'.trans hfetch)
    | got bs =>
      obtain ⟨i, hdec, hc, -, -⟩ := decode_of_fetchChunk hfetch
      rw [decoderStep_of_chunk hn hfetch hdec] at hstep
      rw [decoderStep_of_chunk (s := withHeader w h c cs s) hn (hfetch'.trans hfetch) hdec]
      exact exec_chunk_withHeader w h c cs (s := advancePc bs.length s) hp hc hstep
  · cases (decoderStep_of_done (Nat.not_lt.1 hn)).symm.trans hstep
    cases hrun

theorem afterRepeat_withHeader : afterRepeat (withHeader w h c cs s) = withHeader w h c cs (afterRepeat s) := by
  unfold afterRepeat
  by_cases hmax : s.run + 1 = 62
  · rw [if_pos hmax, if_pos (by exact hmax)]; rfl
  · rw [if_neg hmax, if_neg (by exact hmax)]; rfl

/-- R146: ENC, as long as the call goes on. -/
theorem encoderStep_withHeader (hp : s.phase = .encRun) (hstep : encoderStep s = .next t)
    (hrun : t.phase.running = true) :
    encoderStep (withHeader w h c cs s) = .next (withHeader w h c cs t) := by
  have hp' : (withHeader w h c cs s).phase = .encRun := hp
  obtain ⟨hn, hx, heq⟩ | ⟨hn, hx, heq⟩ | ⟨p, hn, hx, hne, heq⟩ | ⟨hn, h0, heq⟩ | ⟨hn, h0, heq⟩ :=
    encoderStep_cases hp <;> cases heq.symm.trans hstep
  · exact encoderStep_of_no_pixel hn hx
  · exact (encoderStep_of_pixel (p := s.prev) hp' hn hx).trans
      (congrArg _ ((if_pos rfl).trans (afterRepeat_withHeader w h c cs)))
  · exact (encoderStep_of_pixel hp' hn hx).trans (congrArg _ (if_neg hne))
  · exact (encoderStep_of_pending_run (s := withHeader w h c cs s) hn h0).trans (exec_encRun _ hp')
  · cases hrun

end

/-- Settles O58: whichever pipeline has the turn, `withHeader` commutes with its step. -/
theorem pipelinesIgnoreHeaderRegisters : Obligations.PipelinesIgnoreHeaderRegisters := by
  intro s t w h c cs hr hrun hd hstep hrun'
  obtain hp | hp := (Phase.running_iff _).1 hrun
  · rw [step_encoder hr hp hd] at hstep
    exact (step_encoder (s := withHeader w h c cs s) hr hp hd).trans (encoderStep_withHeader w h c cs hp hstep hrun')
  · rw [step_decoder hr hp hd] at hstep
    exact (step_decoder (s := withHeader w h c cs s) hr hp hd).trans (decoderStep_withHeader w h c cs hp hstep hrun')

end Sys2Proof.Machine
end

section
/-!
PROOFS. The chunk the selector picks rebuilds its Pixel (spec/41_index_cache_and_diff.md R97, spec/43_encoder.md R135,
R148).
-/

namespace Sys2Proof.Machine

/-- A delta of 0 changes no channel (R96). -/
theorem applyDeltas_zero (prev : Pixel) : applyDeltas prev 0 0 0 = prev := by
  have hzero : ∀ c : Byte, addDelta c 0 = c := fun c => by
    apply BitVec.eq_of_toNat_eq
    have hsum := addDelta_toNat c 0
    omega
  simp only [applyDeltas, hzero]

section
variable {e d : State} {p : Pixel}

/-- R94, R95: the range conditions of the selector are the ranges of the fields. -/
theorem selectChunk_wf (e : State) (p : Pixel) : (selectChunk e p).wf = true := by
  by_cases hslot : readSlot e (pixelHash p) = p
  · rw [selectChunk_of_slot_holds hslot]; rfl
  · by_cases hdiff : diffFits p e.prev = true
    · rw [selectChunk_of_diffFits hslot hdiff, diff_wf_iff]
      exact ((diffFits_iff p e.prev).1 hdiff).2
    · by_cases hluma : lumaFits p e.prev = true
      · rw [selectChunk_of_lumaFits hslot hdiff hluma, luma_wf_iff]
        exact ((lumaFits_iff p e.prev).1 hluma).2
      · by_cases halpha : p.a = e.prev.a
        · rw [selectChunk_of_sameAlpha hslot hdiff hluma halpha]; rfl
        · rw [selectChunk_of_alpha_ne hslot halpha]; rfl

/-- R97: on a decoder with the same `prev` the selected chunk stands for the Pixel. The slot matters for INDEX alone, so
the decoder's may differ where the encoder's does not hold the Pixel. -/
theorem chunkPixel_selectChunk (hprev : d.prev = e.prev)
    (hread : readSlot e (pixelHash p) = p → readSlot d (pixelHash p) = p) : chunkPixel d (selectChunk e p) = p := by
  by_cases hslot : readSlot e (pixelHash p) = p
  · rw [selectChunk_of_slot_holds hslot]
    exact hread hslot
  · by_cases hdiff : diffFits p e.prev = true
    · rw [selectChunk_of_diffFits hslot hdiff, chunkPixel, hprev]
      exact applyDeltas_pixelDeltas ((diffFits_iff p e.prev).1 hdiff).1
    · by_cases hluma : lumaFits p e.prev = true
      · rw [selectChunk_of_lumaFits hslot hdiff hluma, chunkPixel, hprev, add_sub_cancel, add_sub_cancel]
        exact applyDeltas_pixelDeltas ((lumaFits_iff p e.prev).1 hluma).1
      · by_cases halpha : p.a = e.prev.a
        · rw [selectChunk_of_sameAlpha hslot hdiff hluma halpha, chunkPixel, hprev, ← halpha]
        · rw [selectChunk_of_alpha_ne hslot halpha, chunkPixel]

/-- R117: a chunk that is not a RUN commits one Pixel. -/
theorem chunkCount_of_ne_run {i : Instr} (hc : i.isChunk = true) (hrun : ∀ n, i ≠ .run n) (d : State) :
    chunkCount d i = 1 := by
  cases i with
  | rgb => rfl
  | rgba => rfl
  | index => rfl
  | diff => rfl
  | luma => rfl
  | run n => exact absurd rfl (hrun n)
  | header => cases hc
  | endMarker => cases hc

theorem chunkCount_selectChunk (d e : State) (p : Pixel) : chunkCount d (selectChunk e p) = 1 := by
  obtain ⟨hc, hrun⟩ := selectChunk_isChunk e p
  exact chunkCount_of_ne_run hc hrun d

/-- R148: `DIFF 0,0,0` would rebuild `prev` itself. -/
theorem selectChunk_ne_diff_zero (hne : p ≠ e.prev) : selectChunk e p ≠ .diff 0 0 0 := by
  intro hzero
  by_cases hslot : readSlot e (pixelHash p) = p
  · rw [selectChunk_of_slot_holds hslot] at hzero
    cases hzero
  · have hrebuilt := chunkPixel_selectChunk (d := e) rfl fun h => absurd h hslot
    rw [hzero] at hrebuilt
    exact hne (hrebuilt.symm.trans (applyDeltas_zero e.prev))

end

/-- Settles O40: a chunk commits the Pixel it stands for, and here that is `p`, by `chunkPixel_selectChunk`. -/
theorem selectedChunkRebuildsPixel : Obligations.SelectedChunkRebuildsPixel := by
  intro e d p hp hprev hread
  obtain ⟨hc, hrun⟩ := selectChunk_isChunk e p
  refine ⟨selectChunk_wf e p, hc, hrun, selectChunk_ne_diff_zero, ?_⟩
  obtain ⟨t, hexec, hcommits⟩ := exec_chunk_commits hp (selectChunk e p) hc
  rw [chunkPixel_selectChunk hprev fun h => hread.trans h, chunkCount_selectChunk] at hcommits
  exact ⟨t, hexec, hcommits⟩

end Sys2Proof.Machine
end

section
/-!
PROOFS. A decoder fed with the encoder's chunks follows it (spec/41_index_cache_and_diff.md R101).
-/

namespace Sys2Proof.Machine

-- Chunks decoded one after the other ------------------------------------------------------------------------------

/-- From `d` the chunks are committed one after the other, each in range and while a Pixel is still needed: what the
decoder does with their bytes, `pc` aside. -/
inductive Decodes : State → List Instr → State → Prop where
  | nil (d : State) : Decodes d [] d
  | cons {d d' : State} {i : Instr} {later : List Instr} (hwf : i.wf = true) (hc : i.isChunk = true)
      (hn : d.pxCnt < d.npix) (hlater : Decodes (commitDecoded (chunkPixel d i) (chunkCount d i) d) later d') :
      Decodes d (i :: later) d'

section
variable {d d' : State} {items : List Instr}

theorem Decodes.append {d'' : State} {later : List Instr} (hdec : Decodes d items d') (hlater : Decodes d' later d'') :
    Decodes d (items ++ later) d'' := by
  induction hdec with
  | nil => exact hlater
  | cons hwf hc hn _ ih => exact .cons hwf hc hn (ih hlater)

theorem Decodes.wf (hdec : Decodes d items d') : ∀ i ∈ items, i.wf = true := by
  induction hdec with
  | nil => simp
  | cons hwf _ _ _ ih => exact List.forall_mem_cons.2 ⟨hwf, ih⟩

/-- The commits are those of `exec`. -/
theorem Decodes.execAll (hdec : Decodes d items d') (hp : d.phase = .decRun) : execAll items d = .next d' := by
  induction hdec with
  | nil => rfl
  | cons _ hc _ _ ih =>
    rw [Machine.execAll, exec_chunk_decRun _ hp hc]
    exact ih hp

/-- R117: nothing but the output Pixels, `prev`, `px_cnt` and the cache changes. -/
theorem Decodes.frame (hdec : Decodes d items d') :
    { d' with pixOut := d.pixOut, prev := d.prev, pxCnt := d.pxCnt, cache := d.cache } = d := by
  induction hdec with
  | nil => rfl
  | @cons d d' i _ _ _ _ _ ih =>
    exact congrArg (fun t : State =>
      { t with pixOut := d.pixOut, prev := d.prev, pxCnt := d.pxCnt, cache := d.cache }) ih

end

-- What the encoder's moves ask of the decoder ---------------------------------------------------------------------

/-- What `e` emitted on its way to `e'` is a list of chunks that `d` decodes, to follow `e'` then. -/
def EmissionDecodes (e e' d : State) : Prop :=
  ∃ items d', Decodes d items d' ∧ e'.out = e.out ++ (items.map encode).flatten ∧ DecoderFollows e' d'

theorem EmissionDecodes.refl {e d : State} (hf : DecoderFollows e d) : EmissionDecodes e e d :=
  ⟨[], d, .nil d, (List.append_nil _).symm, hf⟩

/-- In the terms of O59: the items are well-formed, and executing them is what `Decodes` says. -/
theorem EmissionDecodes.exists_items {e e' d : State} (h : EmissionDecodes e e' d) (hp : d.phase = .decRun) :
    ∃ (items : List Instr) (d' : State), (∀ i ∈ items, i.wf = true) ∧
      e'.out = e.out ++ (items.map encode).flatten ∧ execAll items d = .next d' ∧ DecoderFollows e' d' := by
  obtain ⟨items, d', hdec, hout, hf⟩ := h
  exact ⟨items, d', hdec.wf, hout, hdec.execAll hp, hf⟩

/-- R99, R100: in an encode the slot of `prev` holds `prev`, or nothing has been processed. -/
theorem prevCached_or_untouched {s : State} (hs : CacheInvariant s) (hrun : s.phase.running = true) :
    PrevCached s ∨ Untouched s := by
  obtain ⟨-, -, ⟨hu, -⟩ | hcached⟩ := hs hrun
  · exact .inr hu
  · exact .inl hcached

section
variable {e d : State} (hf : DecoderFollows e d)
include hf

/-- R133: a repeat joins the pending run, and the decoder has nothing to do yet. -/
theorem follows_pending (hx : e.pixIn[e.pxCnt]? = some e.prev) :
    DecoderFollows { e with pxCnt := e.pxCnt + 1, run := e.run + 1 } d := by
  obtain ⟨hphase, hprev, hnpix, hslots, hcnt, hpix⟩ := hf
  refine ⟨hphase, hprev, hnpix, hslots, congrArg (· + 1) hcnt, ?_⟩
  simp only [List.replicate_succ', ← List.append_assoc, hpix, List.take_add_one, hx, Option.toList_some]

/-- The decoder writes the Pixel of a run to its slot, the encoder does not (R117, R133): the two caches still agree, or
the Pixel is the initial `prev` and its slot, 53, the exception of R101. -/
theorem slots_of_committed_prev (hcached : PrevCached e ∨ Untouched e) (n : Nat) (i : Slot) :
    readSlot (commitDecoded e.prev n d) i = readSlot e i ∨
      i = 53 ∧ readSlot e i = Config.clearedPixel ∧ readSlot (commitDecoded e.prev n d) i = Config.initialPrev := by
  obtain ⟨-, -, -, hslots, -, -⟩ := hf
  rw [readSlot_commitDecoded]
  split
  · next hi =>
    obtain hcached | ⟨hcleared, hinit⟩ := hcached
    · exact .inl (hi ▸ hcached.symm)
    · refine .inr ⟨?_, readSlot_clearedCache e hcleared i, hinit⟩
      rw [hi, hinit]
      rfl
  · exact hslots i

/-- R116, R134, R143: the pending run as a RUN, needed in full since `px_cnt` counts its Pixels already. -/
theorem follows_run (hcached : PrevCached e ∨ Untouched e) (hle : e.pxCnt ≤ e.npix) (hpos : 0 < e.run)
    (hmax : e.run ≤ 62) : ∃ d', Decodes d [.run e.run] d' ∧ DecoderFollows { e with run := 0 } d' := by
  have hslots' := slots_of_committed_prev hf hcached e.run
  obtain ⟨hphase, hprev, hnpix, -, hcnt, hpix⟩ := hf
  have hneeded : d.pxCnt < d.npix := by omega
  have hcount : chunkCount d (.run e.run) = e.run := min_eq_left (by omega)
  refine ⟨_, .cons ((run_wf_iff _).2 ⟨hpos, hmax⟩) rfl hneeded (.nil _), ?_⟩
  rw [hcount, chunkPixel, hprev]
  refine ⟨hphase, rfl, hnpix, hslots', hcnt, ?_⟩
  simpa using hpix

/-- The hash of the cleared Pixel is 0, not 53, so what INDEX finds in the encoder's cache it finds in the decoder's. -/
theorem decoder_slot_holds {p : Pixel} (hread : readSlot e (pixelHash p) = p) : readSlot d (pixelHash p) = p := by
  obtain ⟨-, -, -, hslots, -, -⟩ := hf
  obtain hsame | ⟨hi, hcleared, -⟩ := hslots (pixelHash p)
  · exact hsame.trans hread
  · rw [← hread, hcleared] at hi
    exact absurd hi (by decide)

/-- R135, R140, R117: the selected chunk, with no run pending. -/
theorem follows_selected {p : Pixel} (hrun : e.run = 0) (hn : e.pxCnt < e.npix) (hx : e.pixIn[e.pxCnt]? = some p) :
    ∃ d', Decodes d [selectChunk e p] d' ∧ DecoderFollows (commitEncoded p { e with pxCnt := e.pxCnt + 1 }) d' := by
  have hslot : readSlot e (pixelHash p) = p → readSlot d (pixelHash p) = p := decoder_slot_holds hf
  obtain ⟨hphase, hprev, hnpix, hslots, hcnt, hpix⟩ := hf
  refine ⟨_, .cons (selectChunk_wf e p) (selectChunk_isChunk e p).1 (by omega) (.nil _), ?_⟩
  rw [chunkPixel_selectChunk hprev hslot, chunkCount_selectChunk]
  refine ⟨hphase, rfl, hnpix, fun i => ?_, ?_, ?_⟩
  · rw [readSlot_commitDecoded, readSlot_commitEncoded]
    split
    · exact .inl rfl
    · exact hslots i
  · simp only [commitDecoded_pxCnt, commitEncoded_run, commitEncoded_pxCnt]
    omega
  · rw [hrun, List.replicate_zero, List.append_nil] at hpix
    simp only [commitDecoded_pixOut, commitEncoded_run, commitEncoded_pixIn, commitEncoded_pxCnt, hrun,
      List.replicate_zero, List.append_nil, hpix, List.take_add_one, hx, Option.toList_some, List.replicate_one]

-- The encoder's moves ---------------------------------------------------------------------------------------------

section
variable (hcached : PrevCached e ∨ Untouched e)
include hcached

theorem emissionDecodes_afterRepeat (hn : e.pxCnt < e.npix) (hx : e.pixIn[e.pxCnt]? = some e.prev) :
    EmissionDecodes e (afterRepeat e) d := by
  have hpending := follows_pending hf hx
  unfold afterRepeat
  split
  · next hmax =>
    obtain ⟨d', hdec, hf'⟩ := follows_run hpending hcached hn (Nat.succ_pos _) hmax.le
    simp only [hmax] at hdec
    exact ⟨[.run 62], d', hdec, rfl, hf'⟩
  · exact ⟨[], d, .nil d, (List.append_nil _).symm, hpending⟩

theorem emissionDecodes_flush (hle : e.pxCnt ≤ e.npix) (hpos : 0 < e.run) (hmax : e.run ≤ 62) :
    EmissionDecodes e (emitted (.run e.run) e) d := by
  obtain ⟨d', hdec, hf'⟩ := follows_run hf hcached hle hpos hmax
  exact ⟨[.run e.run], d', hdec, rfl, hf'⟩

/-- R134: the bytes of the run that is broken, none or one RUN. -/
theorem brokenRun_decodes (hle : e.pxCnt ≤ e.npix) (hmax : e.run ≤ 62) :
    ∃ items d', Decodes d items d' ∧ brokenRun e = (items.map encode).flatten ∧
      DecoderFollows { e with run := 0 } d' := by
  unfold brokenRun
  split
  · next h0 =>
    refine ⟨[], d, .nil d, rfl, ?_⟩
    rw [← h0]
    exact hf
  · next h0 =>
    obtain ⟨d', hdec, hf'⟩ := follows_run hf hcached hle (Nat.pos_of_ne_zero h0) hmax
    exact ⟨[.run e.run], d', hdec, rfl, hf'⟩

theorem emissionDecodes_afterNewPixel {p : Pixel} (hn : e.pxCnt < e.npix) (hmax : e.run ≤ 62)
    (hx : e.pixIn[e.pxCnt]? = some p) : EmissionDecodes e (afterNewPixel p e) d := by
  obtain ⟨items, d₁, hdec, hbroken, hf₁⟩ := brokenRun_decodes hf hcached hn.le hmax
  obtain ⟨d', hdec', hf'⟩ := follows_selected (p := p) hf₁ rfl hn hx
  refine ⟨items ++ [selectChunk e p], d', hdec.append hdec', ?_, hf'⟩
  simp only [afterNewPixel, commitEncoded_out, emit_out, hbroken, List.map_append, List.flatten_append, List.map_cons,
    List.map_nil, List.flatten_cons, List.flatten_nil, List.append_nil]

end
end

/-- Settles O59: chunk by chunk for the moves of a call that goes on; END changes nothing in the decoder, and in the
encoder nothing that the relation speaks of. -/
theorem decoderFollowsEncoder : Obligations.DecoderFollowsEncoder := by
  intro e d e' hr hp hd hcache hcounters hf hstep
  have hcached := prevCached_or_untouched hcache ((Phase.running_iff _).2 (.inl hp))
  obtain ⟨-, -, hrun61, -, hcounts⟩ := hcounters hp
  obtain ⟨hle, -⟩ := hcounts hd
  have hdec : d.phase = .decRun := hf.1
  cases steps_of_step hstep with
  | takesReset hr' => cases hr.symm.trans hr'
  | waits => exact (EmissionDecodes.refl hf).exists_items hdec
  | takesCommand c later _ hn => rw [hp] at hn; cases hn
  | emitsHeader _ _ hd' => cases hd.symm.trans hd'
  | repeatsPixel _ _ _ hn hx => exact (emissionDecodes_afterRepeat hf hcached hn hx).exists_items hdec
  | newPixel p _ _ _ hn hx => exact (emissionDecodes_afterNewPixel hf hcached hn (by omega) hx).exists_items hdec
  | flushesRun _ _ _ _ h0 => exact (emissionDecodes_flush hf hcached hle h0 (by omega)).exists_items hdec
  | emitsEnd =>
    refine ⟨[.endMarker], d, by simp [Instr.wf], rfl, ?_, hf⟩
    rw [execAll, exec_endMarker_decRun hdec]
    rfl
  | acceptsHeader w h c cs _ hp' => cases hp.symm.trans hp'
  | headerError err _ hp' => cases hp.symm.trans hp'
  | chunk i n _ hp' => cases hp.symm.trans hp'
  | fetchError _ hp' => cases hp.symm.trans hp'
  | completes _ hp' => cases hp.symm.trans hp'

end Sys2Proof.Machine
end

section
/-!
PROOFS. Decoding what was encoded gives it back (spec/44_operations.md R173): the encoder runs to its end marker, and a
decoder of its output runs to completion with the same Pixels.
-/

namespace Sys2Proof.Machine

/-- A run of `m` steps, then one of `n`. -/
theorem core_run_add {s t : State} {m : Nat} (n : Nat) (hrun : core.run m s = .next t) :
    core.run (m + n) s = core.run n t := by
  induction m generalizing s with
  | zero => cases hrun; rw [Nat.zero_add]
  | succ m ih =>
    obtain ⟨u, hstep, -⟩ := step_steps s
    rw [core_run_succ hstep] at hrun
    rw [Nat.succ_add, core_run_succ hstep, ih hrun]

theorem core_run_one {s t : State} (hstep : step s = .next t) : core.run 1 s = .next t := core_run_succ hstep

-- The encoder, from its header to its last chunk ------------------------------------------------------------------

/-- An encode that has written its header, with its invariants and all its Pixels delivered. -/
structure Encoding (e : State) : Prop where
  rst : e.rst = false
  phase : e.phase = .encRun
  hdrDone : e.hdrDone = true
  cache : CacheInvariant e
  counters : EncoderCounters e
  pixels : e.pixIn.length = e.npix

/-- The encode `e` gets to `e'`, still running, and a decoder that follows `e` decodes what is emitted on the way. -/
structure EncodesTo (e e' : State) : Prop where
  encoding : Encoding e'
  reached : ∃ n, core.run n e = .next e'
  frame : { e' with out := e.out, run := e.run, prev := e.prev, pxCnt := e.pxCnt, cache := e.cache } = e
  decodes : ∀ d, DecoderFollows e d → EmissionDecodes e e' d

theorem EncodesTo.refl {e : State} (he : Encoding e) : EncodesTo e e := ⟨he, ⟨0, rfl⟩, rfl, fun _ => .refl⟩

theorem EncodesTo.trans {e e' e'' : State} (h : EncodesTo e e') (h' : EncodesTo e' e'') : EncodesTo e e'' := by
  obtain ⟨m, hm⟩ := h.reached
  obtain ⟨n, hn⟩ := h'.reached
  refine ⟨h'.encoding, ⟨m + n, (core_run_add n hm).trans hn⟩, ?frame, fun d hf => ?decodes⟩
  case frame =>
    exact (congrArg (fun t : State =>
      { t with out := e.out, run := e.run, prev := e.prev, pxCnt := e.pxCnt, cache := e.cache }) h'.frame).trans h.frame
  case decodes =>
    obtain ⟨items, d', hdec, hout, hf'⟩ := h.decodes d hf
    obtain ⟨items', d'', hdec', hout', hf''⟩ := h'.decodes d' hf'
    refine ⟨items ++ items', d'', hdec.append hdec', ?_, hf''⟩
    rw [hout', hout, List.map_append, List.flatten_append, List.append_assoc]

section
variable {e : State} (he : Encoding e)
include he

/-- One step that writes only what a chunk or a repeat writes; the invariants are kept by every step. -/
theorem encodesTo_of_step {e' : State} (hstep : encoderStep e = .next e')
    (hframe : { e' with out := e.out, run := e.run, prev := e.prev, pxCnt := e.pxCnt, cache := e.cache } = e)
    (hdecodes : ∀ d, DecoderFollows e d → EmissionDecodes e e' d) : EncodesTo e e' := by
  have hstep' : step e = .next e' := (step_encoder he.rst he.phase he.hdrDone).trans hstep
  have hpixIn : e'.pixIn = e.pixIn := (congrArg State.pixIn hframe :)
  have hnpix : e'.npix = e.npix := (congrArg State.npix hframe :)
  exact {
    encoding := {
      rst := (congrArg State.rst hframe).trans he.rst
      phase := (congrArg State.phase hframe).trans he.phase
      hdrDone := (congrArg State.hdrDone hframe).trans he.hdrDone
      cache := stepKeepsCacheInvariant e e' he.cache hstep'
      counters := stepKeepsEncoderCounters e e' he.counters hstep'
      pixels := by rw [hpixIn, hnpix, he.pixels] }
    reached := ⟨1, core_run_one hstep'⟩
    frame := hframe
    decodes := hdecodes }

theorem Encoding.prevCached : PrevCached e ∨ Untouched e :=
  prevCached_or_untouched he.cache ((Phase.running_iff _).2 (.inl he.phase))

theorem Encoding.pxCnt_le : e.pxCnt ≤ e.npix := by
  obtain ⟨-, -, -, -, hcounts⟩ := he.counters he.phase
  obtain ⟨hle, -⟩ := hcounts he.hdrDone
  exact hle

theorem Encoding.run_le : e.run ≤ 62 := by
  obtain ⟨-, -, hrun61, -⟩ := he.counters he.phase
  omega

/-- R147 at any point of the encode. -/
theorem Encoding.out_length_le : e.out.length ≤ 14 + 5 * e.npix := by
  obtain ⟨-, -, -, -, hcounts⟩ := he.counters he.phase
  obtain ⟨hle, -, -, -, hsize⟩ := hcounts he.hdrDone
  omega

/-- R131: while Pixels remain, a step consumes one. -/
theorem encodesTo_next_pixel (hn : e.pxCnt < e.npix) : ∃ e', EncodesTo e e' ∧ e'.pxCnt = e.pxCnt + 1 := by
  have hdelivered : e.pxCnt < e.pixIn.length := hn.trans_eq he.pixels.symm
  have hx : e.pixIn[e.pxCnt]? = some e.pixIn[e.pxCnt] := List.getElem?_eq_getElem hdelivered
  have hstep := encoderStep_of_pixel he.phase hn hx
  by_cases hrepeat : e.pixIn[e.pxCnt] = e.prev
  · rw [if_pos hrepeat] at hstep
    rw [hrepeat] at hx
    refine ⟨_, encodesTo_of_step he hstep ?_ fun d hf => emissionDecodes_afterRepeat hf he.prevCached hn hx, ?_⟩
    · exact congrArg (fun t : State => { t with prev := e.prev, cache := e.cache }) (afterRepeat_frame e)
    · exact afterRepeat_pxCnt e
  · rw [if_neg hrepeat] at hstep
    exact ⟨_, encodesTo_of_step he hstep rfl fun d hf => emissionDecodes_afterNewPixel hf he.prevCached hn he.run_le hx,
      rfl⟩

/-- R143: after the last Pixel, a pending run is flushed. -/
theorem encodesTo_flushed (hn : e.npix ≤ e.pxCnt) : ∃ e', EncodesTo e e' ∧ e'.npix ≤ e'.pxCnt ∧ e'.run = 0 := by
  by_cases h0 : e.run = 0
  · exact ⟨e, .refl he, hn, h0⟩
  · have hpos : 0 < e.run := Nat.pos_of_ne_zero h0
    have hstep := (encoderStep_of_pending_run hn hpos).trans (exec_encRun _ he.phase)
    exact ⟨_, encodesTo_of_step he hstep rfl fun d hf =>
      emissionDecodes_flush hf he.prevCached he.pxCnt_le hpos he.run_le, hn, rfl⟩

end

/-- R145: an encode whose Pixels are delivered consumes them all and flushes its run. -/
theorem encodesTo_end {e : State} (he : Encoding e) : ∃ e', EncodesTo e e' ∧ e'.npix ≤ e'.pxCnt ∧ e'.run = 0 := by
  induction hm : e.npix - e.pxCnt generalizing e with
  | zero => exact encodesTo_flushed he (Nat.sub_eq_zero_iff_le.1 hm)
  | succ m ih =>
    obtain ⟨e₁, hfirst, hcnt⟩ := encodesTo_next_pixel he (by omega)
    have hnpix : e₁.npix = e.npix := (congrArg State.npix hfirst.frame :)
    obtain ⟨e', hrest, hdone⟩ := ih hfirst.encoding (by omega)
    exact ⟨e', hfirst.trans hrest, hdone⟩

-- The encoder's first two steps -----------------------------------------------------------------------------------

/-- A command to encode that passes every pre-check and delivers its Pixels (R161). -/
structure LegalEncode (c : Command) : Prop where
  op : c.op = 1
  width : c.width ≠ 0
  height : c.height ≠ 0
  channels : c.channels = 3 ∨ c.channels = 4
  pixels : c.pixels.length = c.width.toNat * c.height.toNat
  len : c.len.toNat = c.pixels.length

/-- The encode of `c` with its header written. -/
def encoderStart (c : Command) (s : State) : State :=
  { startedCall .encRun c s with
    npix := c.width.toNat * c.height.toNat
    out := encode (.header c.width c.height c.channels c.colorspace)
    hdrDone := true }

section
variable {s : State} {c : Command} (hr : s.rst = false) (hc : LegalEncode c)
include hr hc

theorem core_run_encoderStart (hn : s.phase.running = false) (hcmd : s.cmd = [c]) :
    core.run 2 s = .next (encoderStart c { s with cmd := [] }) := by
  have hcommand := (step_of_command hr hn hcmd).trans (congrArg _ (startCall_encode hc.op _))
  rw [core_run_succ hcommand]
  refine core_run_one ((step_headerEncode (s := startedCall .encRun c { s with cmd := [] }) hr rfl rfl).trans
    ((headerEncodeStep_eq rfl).trans (congrArg _ ?_)))
  exact emitHeader_of_legal (not_or.2 ⟨hc.width, hc.height⟩) (by have := hc.channels; tauto) c.colorspace
    (hc.len.trans hc.pixels)

theorem encoding_encoderStart : Encoding (encoderStart c s) where
  rst := hr
  phase := rfl
  hdrDone := rfl
  cache := cacheInvariant_of_untouched ⟨rfl, rfl⟩ rfl
  counters _ := ⟨rfl, le_rfl, Nat.zero_le _, fun h => (by cases h), fun _ =>
    ⟨Nat.zero_le _, rfl, (hc.len.trans hc.pixels).symm, le_rfl, le_rfl⟩⟩
  pixels := hc.pixels

end

-- The decoder -----------------------------------------------------------------------------------------------------

/-- The decode of `c` with the header `w, h, ch, cs` read. -/
def decoderStart (w h : BitVec 32) (ch cs : Byte) (c : Command) (s : State) : State :=
  { startedCall .decRun c s with
    width := w
    height := h
    channels := ch
    colorspace := cs
    npix := w.toNat * h.toNat
    pc := Config.headerBytes
    hdrDone := true }

theorem core_run_decoderStart {s : State} {c : Command} {w h : BitVec 32} {ch cs : Byte} (hr : s.rst = false)
    (hn : s.phase.running = false) (hcmd : s.cmd = [c]) (hop : c.op = 2) (hch : ch = 3 ∨ ch = 4)
    (hlen : Config.headerBytes ≤ c.len.toNat)
    (hread : Memory.readBytes c.bytes 0 Config.headerBytes = some (encode (.header w h ch cs))) :
    core.run 2 s = .next (decoderStart w h ch cs c { s with cmd := [] }) := by
  have hcommand := (step_of_command hr hn hcmd).trans (congrArg _ (startCall_decode hop _))
  have hitem := decodeHeaderItem_encode w h ch cs []
  rw [List.append_nil] at hitem
  rw [core_run_succ hcommand]
  refine core_run_one ((step_headerDecode (s := startedCall .decRun c { s with cmd := [] }) hr rfl rfl).trans
    ((headerDecodeStep_of_item hlen hread hitem).trans ?_))
  exact (exec_header_decRun w h ch cs rfl).trans (congrArg _ (if_pos ((channelsLegal_iff ch).2 hch)))

/-- Both start from the cleared cache and the initial `prev` (R101). -/
theorem decoderFollows_start (c c' : Command) (s s' : State) :
    DecoderFollows (encoderStart c s) (decoderStart c.width c.height c.channels c.colorspace c' s') :=
  ⟨rfl, rfl, rfl, fun _ => .inl rfl, rfl, rfl⟩

/-- What is read at an offset is read part by part. -/
theorem Memory.readBytes_append {m : Memory} {a : Nat} {xs ys : List Byte}
    (hread : Memory.readBytes m a (xs ++ ys).length = some (xs ++ ys)) :
    Memory.readBytes m a xs.length = some xs ∧ Memory.readBytes m (a + xs.length) ys.length = some ys := by
  constructor
  · exact Memory.readBytes_part m a [] xs ys (by simpa using hread)
  · exact Memory.readBytes_part m a xs ys [] (by simpa using hread)

theorem place_of_chunk {i : Instr} (hc : i.isChunk = true) : i.place = .body := by
  cases i <;> simp [Instr.isChunk, Instr.place] at hc ⊢

/-- R106, R120: one step decodes the chunk whose encoding stands at `pc`. -/
theorem step_of_encoded_chunk {d : State} {i : Instr} (hr : d.rst = false) (hp : d.phase = .decRun)
    (hd : d.hdrDone = true) (hn : d.pxCnt < d.npix) (hwf : i.wf = true) (hc : i.isChunk = true)
    (hinside : d.pc + (encode i).length ≤ d.len.toNat)
    (hread : Memory.readBytes d.inMem d.pc (encode i).length = some (encode i)) :
    step d = .next (advancePc (encode i).length (commitDecoded (chunkPixel d i) (chunkCount d i) d)) := by
  have hdec := decodeOfEncodedItem i [] hwf
  rw [place_of_chunk hc, List.append_nil] at hdec
  rw [stepRunsFetchedChunk d i (encode i) hr hp hd hn hinside hread hdec]
  refine (exec_chunk_decRun i (by exact hp) hc).trans ?_
  cases i <;> rfl

/-- Chunks that a decoder decodes, standing in IN at `a`, are what the machine runs from `pc = a`. -/
theorem core_run_of_decodes {d d' : State} {items : List Instr} (hdec : Decodes d items d') {a : Nat}
    (hr : d.rst = false) (hp : d.phase = .decRun) (hd : d.hdrDone = true)
    (hinside : a + (items.map encode).flatten.length ≤ d.len.toNat)
    (hread : Memory.readBytes d.inMem a (items.map encode).flatten.length = some (items.map encode).flatten) :
    core.run items.length { d with pc := a } = .next { d' with pc := a + (items.map encode).flatten.length } := by
  induction hdec generalizing a with
  | nil => rfl
  | @cons d d' i later hwf hc hn _ ih =>
    rw [List.map_cons, List.flatten_cons] at hinside hread ⊢
    rw [List.length_append] at hinside
    obtain ⟨hfirst, hlater⟩ := Memory.readBytes_append hread
    have hstep := step_of_encoded_chunk (d := { d with pc := a }) hr hp hd hn hwf hc (by simp only; omega) hfirst
    have hrest := ih (a := a + (encode i).length) hr hp hd (by rw [Nat.add_assoc]; exact hinside) hlater
    rw [List.length_cons, core_run_succ hstep, List.length_append, ← Nat.add_assoc, ← hrest]
    rfl

/-- R165: a decoder whose IN holds, after the header, chunks that produce all its Pixels runs to completion. -/
theorem core_run_completes {d d' : State} {items : List Instr} (hdec : Decodes d items d') (hr : d.rst = false)
    (hp : d.phase = .decRun) (hd : d.hdrDone = true) (hdone : d'.npix ≤ d'.pxCnt)
    (hinside : d.pc + (items.map encode).flatten.length ≤ d.len.toNat)
    (hread : Memory.readBytes d.inMem d.pc (items.map encode).flatten.length = some (items.map encode).flatten) :
    core.run (items.length + 1) d =
      .next (completeDecode { d' with pc := d.pc + (items.map encode).flatten.length }) := by
  have hrun := core_run_of_decodes hdec hr hp hd hinside hread
  have hframe := hdec.frame
  rw [core_run_add 1 hrun]
  refine core_run_one ((step_decoder ?_ ?_ ?_).trans (decoderStep_of_done hdone))
  · exact (congrArg State.rst hframe).trans hr
  · exact (congrArg State.phase hframe).trans hp
  · exact (congrArg State.hdrDone hframe).trans hd

-- Both together ---------------------------------------------------------------------------------------------------

/-- A decoder that follows an encode at its end has output all the Pixels. -/
theorem DecoderFollows.at_end {e d : State} (hf : DecoderFollows e d) (he : Encoding e) (hdone : e.npix ≤ e.pxCnt)
    (h0 : e.run = 0) : d.npix ≤ d.pxCnt ∧ d.pixOut = e.pixIn := by
  obtain ⟨-, -, hnpix, -, hcnt, hpix⟩ := hf
  refine ⟨by omega, ?_⟩
  rwa [h0, List.replicate_zero, List.append_nil, List.take_of_length_le (he.pixels.trans_le hdone)] at hpix

/-- The decode of the whole output of an encode that ended in `e`. -/
theorem decode_of_encoded {c c' : Command} {s s' e : State} (hto : EncodesTo (encoderStart c s) e)
    (hdone : e.npix ≤ e.pxCnt) (h0 : e.run = 0) (hch : c.channels = 3 ∨ c.channels = 4) (hr : s'.rst = false)
    (hn : s'.phase.running = false) (hcmd : s'.cmd = [c']) (hop : c'.op = 2)
    (hlen : c'.len.toNat = (e.out ++ Config.endMarker).length)
    (hread : Memory.readBytes c'.bytes 0 (e.out ++ Config.endMarker).length = some (e.out ++ Config.endMarker)) :
    ∃ (k : Nat) (d' : State), core.run k s' = .next (completeDecode { d' with pc := e.out.length }) ∧ d'.err = none ∧
      d'.pixOut = e.pixIn ∧ d'.width = c.width ∧ d'.height = c.height ∧ d'.channels = c.channels ∧
      d'.colorspace = c.colorspace := by
  obtain ⟨items, d', hdec, hout, hf⟩ := hto.decodes _ (decoderFollows_start c c' s { s' with cmd := [] })
  obtain ⟨hneed, hpix⟩ := hf.at_end hto.encoding hdone h0
  obtain ⟨hreadOut, -⟩ := Memory.readBytes_append hread
  rw [List.length_append] at hlen
  have hsize : e.out.length = Config.headerBytes + (items.map encode).flatten.length := by
    rw [hout, List.length_append]; rfl
  rw [hout] at hreadOut
  obtain ⟨hheader, hchunks⟩ := Memory.readBytes_append hreadOut
  have hstart := core_run_decoderStart hr hn hcmd hop hch (by omega) hheader
  rw [Nat.zero_add] at hchunks
  have hinside : Config.headerBytes + (items.map encode).flatten.length ≤ c'.len.toNat := by omega
  have hrun := core_run_completes hdec hr rfl rfl hneed hinside hchunks
  have hframe := hdec.frame
  refine ⟨2 + (items.length + 1), d', ?_, (congrArg State.err hframe :), hpix, (congrArg State.width hframe :),
    (congrArg State.height hframe :), (congrArg State.channels hframe :), (congrArg State.colorspace hframe :)⟩
  rw [core_run_add _ hstart, hrun, hsize]
  rfl

/-- Settles O60: the encode runs to its end marker by `encodesTo_end`, and its output is decoded by `decode_of_encoded`;
R147 keeps every length below 2^64. -/
theorem decodeOfEncodeIsIdentity : Obligations.DecodeOfEncodeIsIdentity := by
  intro s c hr hn hcmd hop hw hh hch hpixels hlen hsize
  have hc : LegalEncode c := ⟨hop, hw, hh, hch, hpixels, hlen⟩
  obtain ⟨e, hto, hdone, h0⟩ := encodesTo_end (encoding_encoderStart (s := { s with cmd := [] }) hr hc)
  obtain ⟨n, hreached⟩ := hto.reached
  have he := hto.encoding
  have hpixIn : e.pixIn = c.pixels := (congrArg State.pixIn hto.frame :)
  have hout : (e.out ++ Config.endMarker).length < 2 ^ 64 := by
    have := he.out_length_le
    rw [← he.pixels, hpixIn] at this
    rw [List.length_append, show Config.endMarker.length = 8 from rfl]
    omega
  have hend : step e = .next (emitted .endMarker e) :=
    (step_encoder he.rst he.phase he.hdrDone).trans ((encoderStep_of_end hdone h0).trans (exec_encRun _ he.phase))
  have hrun : core.run (2 + (n + 1)) s = .next (emitted .endMarker e) := by
    rw [core_run_add _ (core_run_encoderStart hr hc hn hcmd), core_run_add 1 hreached, core_run_one hend]
  have houtLen : (emitted .endMarker e).outLen.toNat = (e.out ++ Config.endMarker).length := outLenOf_toNat hout _
  refine ⟨_, _, hrun, rfl, (congrArg State.err hto.frame :), houtLen, ?_⟩
  intro s' c' hr' hn' hcmd' hop' hlen' hread'
  obtain ⟨k, d', hdecode, herr, hpix, hwidth, hheight, hchannels, hcolorspace⟩ :=
    decode_of_encoded hto hdone h0 hch hr' hn' hcmd' hop' ((congrArg BitVec.toNat hlen').trans houtLen) hread'
  refine ⟨k, _, hdecode, rfl, herr, hpix.trans hpixIn, hwidth, hheight, hchannels, hcolorspace, ?_⟩
  rw [List.length_append] at hout
  show (BitVec.ofNat 64 e.out.length).toNat + 8 = (e.out ++ Config.endMarker).length
  rw [BitVec.toNat_ofNat, Nat.mod_eq_of_lt (by omega), List.length_append]
  rfl

end Sys2Proof.Machine
end
